-- ==== Sys2Proof/Word.lean ====
section
/-! DEFINITION. The machine's three widths: the byte (CELL_BITS, ACC_BITS), the 12-bit address (ADDR_BITS, PC_BITS,
STACK_ENTRY_BITS) and the nibble (OPC_BITS), 00_scope.md rules R6 and R7. A value of `Addr` is already `mask12`ed (R8, R31, U2):
an address outside 0x000..0xFFF cannot be expressed. -/
namespace Sys2Proof

/-- A byte: 8 bits, bit 0 the least significant (R7). -/
abbrev Byte := BitVec 8

/-- A 12-bit address; addition on it wraps modulo 4096 (R8, R12, R31). -/
abbrev Addr := BitVec 12

/-- A nibble: an opcode class or a sub-operand (R7, R50). -/
abbrev Nibble := BitVec 4

end Sys2Proof
end

