-- ==== Sys2Proof/Config.lean ====
section
/-! DEFINITION. What an implementation fixes: the parameters of 00_scope.md rule R6, and the values the spec leaves open,
which have no body here. -/
namespace Sys2Proof

/-- The two roundings of an inexact signed quotient that R84 allows. -/
inductive DivRound where
  /-- Toward zero. -/
  | trunc
  /-- Toward minus infinity. -/
  | floor
deriving DecidableEq, Repr, Inhabited

/-- DIV_ROUND (R6, R84, D8): OPEN in the spec, one of `trunc` or `floor`, fixed for the life of the machine. A constant with
no body, so no proof can tell which. DESIGN CHOICE (its form), safe: log 2. -/
opaque Config.divRound : DivRound

/-- ACC_RESET (R6, R21, D9): OPEN in the spec, any byte. DESIGN CHOICE, unsafe: `State.reset` takes 0x00 (log 1); the host
command PowerOn takes it as an argument (log 20). -/
def Config.accReset : Byte := 0x00

/-- MEM_FILL (R6, R21, R30): the value of every cell at power-on, hence of every cell memory does not list. -/
def Config.memFill : Byte := 0xFF

/-- FAULT_PC (R6, R161). -/
def Config.faultPc : Addr := 0x000

/-- RET_OFFSET (R6, R96): added to a popped return address. -/
def Config.retOffset : Addr := 2

/-- OBJ_MAX_LEN (R6, R129): the largest payload of one object stream. -/
def Config.objMaxLen : Nat := 255

/-- The upper case of a character outside ASCII, possibly several characters: R111 folds every token to upper case and names
no character set. No body: a free value. DESIGN CHOICE, safe: log 8. -/
opaque Config.foldNonAscii : Char → List Char

end Sys2Proof
end

