-- ==== Sys2Proof/Syntax.lean ====
section
/-! DEFINITION. The instructions as syntax: one constructor for each row of spec/opcode_table.json. -/
namespace Sys2Proof

/-- The 13 mnemonics of the Instruction Catalog (30_encoding.md R53). -/
inductive Mnemonic where
  | JP | JZ | JN | CN | ADD | SUB | MULT | DIV | LD | MM | SC | OS | IO
deriving DecidableEq, Repr

/-- An instruction as decoded. Size-2 instructions carry the 12-bit operand `op12`, size-1 instructions the 4-bit
sub-operand `sub4` (R50, R52); the three illegal nibbles carry the first byte's low nibble, which nothing examines (R55). -/
inductive Instr where
  /-- R70, nibble 0x0. -/
  | jp (op12 : Addr)
  /-- R71, nibble 0x1. -/
  | jz (op12 : Addr)
  /-- R72, nibble 0x2. -/
  | jn (op12 : Addr)
  /-- R75, nibble 0x3. -/
  | cn (sub4 : Nibble)
  /-- R81, nibble 0x4. -/
  | add (op12 : Addr)
  /-- R82, nibble 0x5. -/
  | sub (op12 : Addr)
  /-- R83, nibble 0x6. -/
  | mult (op12 : Addr)
  /-- R84, nibble 0x7. -/
  | div (op12 : Addr)
  /-- R90, nibble 0x8. -/
  | ld (op12 : Addr)
  /-- R91, nibble 0x9. -/
  | mm (op12 : Addr)
  /-- R95, nibble 0xA. -/
  | sc (op12 : Addr)
  /-- R96, nibble 0xB. -/
  | os (sub4 : Nibble)
  /-- R100, nibble 0xC. -/
  | io (sub4 : Nibble)
  /-- R55, nibble 0xD: selects no instruction. -/
  | illegalD (low : Nibble)
  /-- R55, nibble 0xE: selects no instruction. -/
  | illegalE (low : Nibble)
  /-- R55, nibble 0xF: selects no instruction. -/
  | illegalF (low : Nibble)
deriving DecidableEq, Repr

end Sys2Proof
end

