-- ==== Sys2Proof/WellFormed.lean ====
section
/-! DEFINITION. Well-formedness of an instruction. Every value of every field is legal (30_encoding.md R56) and the field
types have exactly the fields' widths, so the one thing left to check is that the instruction is one of the catalog's
thirteen: an illegal nibble "selects no instruction" (R55) and no assembler emits it (C7). The machine gives ill-formed
instructions their meaning too (the fault of R55); statements of this package hold for them as well unless they say
otherwise. -/
namespace Sys2Proof

/-- The instruction's catalog mnemonic, none for an illegal nibble (R53, R55). -/
def Instr.mnemonic? : Instr → Option Mnemonic
  | .jp _ => some .JP
  | .jz _ => some .JZ
  | .jn _ => some .JN
  | .cn _ => some .CN
  | .add _ => some .ADD
  | .sub _ => some .SUB
  | .mult _ => some .MULT
  | .div _ => some .DIV
  | .ld _ => some .LD
  | .mm _ => some .MM
  | .sc _ => some .SC
  | .os _ => some .OS
  | .io _ => some .IO
  | .illegalD _ => none
  | .illegalE _ => none
  | .illegalF _ => none

/-- An instruction of the catalog (R53), as against an illegal nibble (R55). -/
def Instr.wf (i : Instr) : Bool := i.mnemonic?.isSome

end Sys2Proof
end

