-- ==== Sys2Proof/Decode.lean ====
section
/-! DEFINITION. The Instruction Catalog, the decoder (total on any bytes, rejecting by name) and, after it, the encoder
written from the same formats (30_encoding.md). -/
namespace Sys2Proof

/-- One row of the Instruction Catalog (R53): the mnemonic, its spelling, its nibble, its size in bytes. -/
structure CatalogRow where
  mnemonic : Mnemonic
  name     : List Char
  nibble   : Nibble
  size     : Nat
deriving DecidableEq, Repr

/-- The Instruction Catalog, an immutable table (R18, R53). -/
def catalog : List CatalogRow :=
  [ ⟨.JP,   ['J', 'P'],           0x0, 2⟩,
    ⟨.JZ,   ['J', 'Z'],           0x1, 2⟩,
    ⟨.JN,   ['J', 'N'],           0x2, 2⟩,
    ⟨.CN,   ['C', 'N'],           0x3, 1⟩,
    ⟨.ADD,  ['A', 'D', 'D'],      0x4, 2⟩,
    ⟨.SUB,  ['S', 'U', 'B'],      0x5, 2⟩,
    ⟨.MULT, ['M', 'U', 'L', 'T'], 0x6, 2⟩,
    ⟨.DIV,  ['D', 'I', 'V'],      0x7, 2⟩,
    ⟨.LD,   ['L', 'D'],           0x8, 2⟩,
    ⟨.MM,   ['M', 'M'],           0x9, 2⟩,
    ⟨.SC,   ['S', 'C'],           0xA, 2⟩,
    ⟨.OS,   ['O', 'S'],           0xB, 1⟩,
    ⟨.IO,   ['I', 'O'],           0xC, 1⟩ ]

/-- Lookup by nibble, the engine's use of the catalog (R18, R54); none for 0xD, 0xE, 0xF (R55). -/
def catalogByNibble (n : Nibble) : Option CatalogRow := catalog.find? (fun r => r.nibble == n)

/-- Lookup by (case-folded) mnemonic string, the SRU's use of the catalog (R18, R119). -/
def catalogByName (name : List Char) : Option CatalogRow := catalog.find? (fun r => r.name == name)

/-! ### Fields -/

/-- Bits 7 to 4 of a first byte: the opcode nibble (R50). -/
def opcodeNibble (b : Byte) : Nibble := b.extractLsb' 4 4

/-- Bits 3 to 0 of a byte: `sub4`, or the operand's high nibble (R50, R52). -/
def lowNibble (b : Byte) : Nibble := b.extractLsb' 0 4

/-- The 12 low bits of a big-endian byte pair, `((hi << 8) | lo)` masked: the operand of a size-2 instruction (R52), and the
layout R37 gives a pointer. -/
def addr12 (hi lo : Byte) : Addr := lowNibble hi ++ lo

/-! ### Decoder -/

/-- The instruction a mnemonic stands for with these two bytes: `op12` for format W, `sub4` for format B (R52). -/
def Mnemonic.toInstr (m : Mnemonic) (b1 b2 : Byte) : Instr :=
  match m with
  | .JP => .jp (addr12 b1 b2)
  | .JZ => .jz (addr12 b1 b2)
  | .JN => .jn (addr12 b1 b2)
  | .CN => .cn (lowNibble b1)
  | .ADD => .add (addr12 b1 b2)
  | .SUB => .sub (addr12 b1 b2)
  | .MULT => .mult (addr12 b1 b2)
  | .DIV => .div (addr12 b1 b2)
  | .LD => .ld (addr12 b1 b2)
  | .MM => .mm (addr12 b1 b2)
  | .SC => .sc (addr12 b1 b2)
  | .OS => .os (lowNibble b1)
  | .IO => .io (lowNibble b1)

/-- A first byte whose nibble the catalog lacks: 0xD, 0xE or 0xF (R55). -/
def illegalInstr (b1 : Byte) : Instr :=
  if opcodeNibble b1 = 0xD then .illegalD (lowNibble b1)
  else if opcodeNibble b1 = 0xE then .illegalE (lowNibble b1)
  else .illegalF (lowNibble b1)

/-- Whether a first byte calls for a second one: the catalog's size 2 (R51). An illegal nibble does not (R55). -/
def hasSecondByte (b1 : Byte) : Bool :=
  match catalogByNibble (opcodeNibble b1) with
  | some row => row.size == 2
  | none => false

/-- The instruction whose first byte is `b1` and, where it has one, whose second byte is `b2` (R51, R52, R54, R55). -/
def decodePair (b1 b2 : Byte) : Instr :=
  match catalogByNibble (opcodeNibble b1) with
  | some row => row.mnemonic.toInstr b1 b2
  | none => illegalInstr b1

/-- Why a sequence of bytes holds no instruction. -/
inductive DecodeError where
  /-- There is no byte at all. -/
  | noBytes
  /-- The first byte calls for a second one (R51) and there is none. -/
  | secondByteMissing
deriving DecidableEq, Repr

/-- What the decoder answers. -/
inductive Decoded where
  /-- The instruction and the bytes after it. -/
  | ok (i : Instr) (rest : List Byte)
  /-- No instruction, and why. -/
  | rejected (why : DecodeError)
deriving DecidableEq, Repr

/-- The decoder: total on any bytes, taking one or two from the front by the first byte's nibble alone (R51). -/
def decode : List Byte → Decoded
  | [] => .rejected .noBytes
  | b1 :: rest =>
    if hasSecondByte b1 then
      match rest with
      | [] => .rejected .secondByteMissing
      | b2 :: rest' => .ok (decodePair b1 b2) rest'
    else .ok (decodePair b1 0) rest

/-! ### Encoder -/

/-- Format W (R50, R60): nibble and operand bits 11 to 8, then operand bits 7 to 0, high byte first (R33). -/
def wordBytes (nib : Nibble) (v : Addr) : List Byte := [nib ++ v.extractLsb' 8 4, v.extractLsb' 0 8]

/-- Format B (R50, R60): nibble and sub-operand in one byte. -/
def controlByte (nib : Nibble) (sub4 : Nibble) : List Byte := [nib ++ sub4]

/-- The bytes of an instruction, from the formats of R50 and the nibbles of R53 (an illegal nibble's one byte: R55). -/
def encode : Instr → List Byte
  | .jp op12 => wordBytes 0x0 op12
  | .jz op12 => wordBytes 0x1 op12
  | .jn op12 => wordBytes 0x2 op12
  | .cn sub4 => controlByte 0x3 sub4
  | .add op12 => wordBytes 0x4 op12
  | .sub op12 => wordBytes 0x5 op12
  | .mult op12 => wordBytes 0x6 op12
  | .div op12 => wordBytes 0x7 op12
  | .ld op12 => wordBytes 0x8 op12
  | .mm op12 => wordBytes 0x9 op12
  | .sc op12 => wordBytes 0xA op12
  | .os sub4 => controlByte 0xB sub4
  | .io sub4 => controlByte 0xC sub4
  | .illegalD low => controlByte 0xD low
  | .illegalE low => controlByte 0xE low
  | .illegalF low => controlByte 0xF low

/-- What the SRU emits for a catalog row and a resolved 12-bit value (R60): a size-1 instruction keeps the value's low nibble. -/
def encodeRow (row : CatalogRow) (v : Addr) : List Byte :=
  if row.size = 1 then controlByte row.nibble (v.extractLsb' 0 4) else wordBytes row.nibble v

/-! ### The opcode table's numbering -/

/-- An instruction given as the opcode table numbers its bits, laid out as the hardware stores it: an 8-bit row is the one
byte, followed by a zero byte; a 16-bit row is a word whose bits 15 to 8 are the first byte (R7, R33, R50). DEDUCED, log 16. -/
def tableBytes (nbits w : Nat) : Byte × Byte :=
  if nbits ≤ 8 then (BitVec.ofNat 8 w, 0) else (BitVec.ofNat 8 (w / 256), BitVec.ofNat 8 w)

/-- The instruction the decoder reads from such a word. -/
def decodeTableWord (nbits w : Nat) : Option Instr :=
  match decode [(tableBytes nbits w).1, (tableBytes nbits w).2] with
  | .ok i _ => some i
  | .rejected _ => none

end Sys2Proof
end

