-- ==== Sys2Proof/Machine/State.lean ====
section
/-! DEFINITION. The machine's state as plain data, its reset, and the two stop types. Fields follow 10_state.md rules R10 (the
engine, complete) and R20 (the SRU); the host's pending commands and the replies to them are the model's own (log 5). -/
namespace Sys2Proof.Machine

/-- MEM (R16, R30) as the list of cells that differ from the fill value, addresses strictly rising (log 12). -/
abbrev Memory := List Host.Cell

/-- IN (R17, R101): a finite sequence of byte tokens and a read position. -/
structure TokenStream where
  tokens : List Byte
  pos    : Nat
deriving DecidableEq, Repr

/-- The four fatal faults (60_exceptions.md R160). The machine records none of these names (R166); they only label the
places that take the fault entry. -/
inductive RuntimeFault where
  /-- DIV with a zero byte at the resolved address (R162). -/
  | divideByZero
  /-- IO, read form, with no token left (R163). -/
  | inputExhausted
  /-- OS with a nonzero sub-operand (R164). -/
  | osError
  /-- A first byte 0xD0 to 0xFF (R165). -/
  | illegalOpcode
deriving DecidableEq, Repr

/-- The engine's complete architectural state (R10). -/
structure Engine where
  /-- ACC, read as two's complement by the ALU and JN (R11). -/
  acc     : Byte
  /-- PC (R12). -/
  pc      : Addr
  /-- STACK (R13), the top of the stack first (log 18). -/
  stack   : List Addr
  /-- LATCH, the one-shot pointer latch (R14). -/
  latch   : Bool
  /-- RUNNING (R15). -/
  running : Bool
  /-- ERROR (R15). -/
  error   : Bool
  /-- MEM (R16). -/
  mem     : Memory
  /-- IN (R17). -/
  input   : TokenStream
  /-- OUT (R17), oldest token first. -/
  output  : List Byte
deriving DecidableEq, Repr

/-- The engine after PowerOn (R21, R180), with ACC_RESET as an argument (R6, D9). -/
def Engine.powerOn (accReset : Byte) : Engine :=
  { acc := accReset, pc := 0, stack := [], latch := false, running := false, error := false,
    mem := [], input := ⟨[], 0⟩, output := [] }

/-! ### The SRU -/

/-- A line of source text, without its terminator (46 R111). -/
abbrev Line := List Char

/-- A token of a line (R111). -/
abbrev Token := List Char

/-- The SRU's errors (R130). -/
inductive SruError where
  | reservedName
  | badLabelDirective
  | unknownMnemonic
  | missingOrigin
  | unresolvedOperand
  | badOrigin
  | duplicateLabel
  | badConstant
  | extraToken
  | objectTooLong
deriving DecidableEq, Repr

/-- What an assembly yields (R4, R110): an object stream, or one error with its 1-based line number. -/
inductive SruResult where
  | object (obj : List Byte)
  | error (e : SruError) (line : Nat)
deriving DecidableEq, Repr

/-- Where the SRU stands (log 6). -/
inductive SruPhase where
  /-- No assembly in progress. -/
  | idle
  /-- Building the symbol table (R123). -/
  | pass1
  /-- Emitting (R125); the header is still to come while LINE is 0. -/
  | pass2
deriving DecidableEq, Repr

/-- The SRU's state (R20). -/
structure Sru where
  /-- Model's own: the pass in progress (log 6). -/
  phase  : SruPhase
  /-- Model's own: the source text being assembled, the SRU's input (R4, R111). -/
  source : List Line
  /-- SYMTAB, the latest declaration first; no name occurs twice (R124). -/
  symtab : List (Token × Addr)
  /-- CURSOR. -/
  cursor : Addr
  /-- COUNT. -/
  count  : Nat
  /-- CHK (R127). -/
  chk    : Byte
  /-- LINE, the 1-based number of the line last taken up, 0 before the first. -/
  line   : Nat
  /-- OBJ. -/
  obj    : List Byte
deriving DecidableEq, Repr

/-- The SRU between assemblies: every register at its reset value (R20). -/
def Sru.idle : Sru :=
  { phase := .idle, source := [], symtab := [], cursor := 0, count := 0, chk := 0, line := 0, obj := [] }

/-! ### The host interface -/

/-- What the host can ask for (R4, R180 to R185); a command waits in `State.host` until the engine is not running. -/
inductive HostCommand where
  /-- PowerOn (R180); the argument is ACC_RESET (R6, D9). -/
  | powerOn (accReset : Byte)
  /-- Run(start, input) (R181). -/
  | run (start : Nat) (input : List Byte)
  /-- HostLoad(obj) (R184). -/
  | load (obj : List Byte)
  /-- HostPeek(a) (R183). -/
  | peek (a : Nat)
  /-- HostPoke(a, v) (R183). -/
  | poke (a v : Nat)
  /-- Reading every piece of the engine's state (R4, R183). -/
  | observe
  /-- Giving the SRU a source text (R4, R110). -/
  | assemble (source : List Line)
deriving DecidableEq, Repr

/-- What a host command returns, where it returns anything. -/
inductive HostReply where
  /-- HostLoad wrote the payload; `ok` says whether the checksum matched (R185). -/
  | loaded (ok : Bool)
  /-- HostLoad refused a malformed stream and wrote nothing (R184). -/
  | loadRefused
  /-- The byte HostPeek read. -/
  | peeked (v : Byte)
  /-- The engine's state as observed. -/
  | observed (e : Engine)
  /-- The SRU's result (R110). -/
  | assembled (r : SruResult)
deriving DecidableEq, Repr

/-! ### The machine -/

/-- The whole machine: the engine, the SRU, and the host interface. -/
structure State extends Engine where
  /-- The SRU's state (R20). -/
  sru     : Sru
  /-- Model's own: pending host commands, oldest first (log 5). -/
  host    : List HostCommand
  /-- Model's own: the replies given so far, oldest first (log 5). -/
  replies : List HostReply
deriving DecidableEq, Repr

/-- The machine right after power-on (R21, R180; ACC: log 1), with nothing asked of it yet (log 5). -/
def State.reset : State :=
  { toEngine := Engine.powerOn Config.accReset, sru := Sru.idle, host := [], replies := [] }

/-- A stop of the machine with a fault. There is none: each of the four fatal faults of R160 is a next state (R161), every
address is legal (R30, R31) and no memory access can fault (R32). Nobody raises it; safe (log 13). -/
inductive Fault where
deriving DecidableEq, Repr

/-- An instruction without a meaning. -/
inductive Refusal where
  /-- Raised by an arm of `exec` for an instruction not modelled yet; no arm raises it. Safe. -/
  | notModelled (mnemonic : String)
deriving DecidableEq, Repr

end Sys2Proof.Machine
end

