-- ==== Sys2Proof/Machine/Ops.lean ====
section
/-! DEFINITION. The named operations over memory, registers, devices and the fault entry. -/
namespace Sys2Proof.Machine

/-! ### Field updates -/

def State.setAcc (s : State) (v : Byte) : State := { s with acc := v }
def State.setPc (s : State) (v : Addr) : State := { s with pc := v }
def State.setStack (s : State) (v : List Addr) : State := { s with stack := v }
def State.setLatch (s : State) (v : Bool) : State := { s with latch := v }
def State.setRunning (s : State) (v : Bool) : State := { s with running := v }
def State.setError (s : State) (v : Bool) : State := { s with error := v }
def State.setMem (s : State) (v : Memory) : State := { s with mem := v }
def State.setInput (s : State) (v : TokenStream) : State := { s with input := v }
def State.setOutput (s : State) (v : List Byte) : State := { s with output := v }
def State.setSru (s : State) (v : Sru) : State := { s with sru := v }
def State.setHost (s : State) (v : List HostCommand) : State := { s with host := v }
def State.setReplies (s : State) (v : List HostReply) : State := { s with replies := v }

/-! ### Memory -/

/-- The byte at address `a`: the listed one, else the fill value (20_memory.md R30, R32). -/
def Memory.lookup : Memory → Nat → Byte
  | [], _ => Config.memFill
  | (k, v) :: rest, a => if k = a then v else Memory.lookup rest a

/-- `m` with the byte at `a` set to `v`; a cell that holds the fill value is not listed (R32, log 12). -/
def Memory.store : Memory → Nat → Byte → Memory
  | [], a, v => if v = Config.memFill then [] else [(a, v)]
  | (k, w) :: rest, a, v =>
    if a < k then if v = Config.memFill then (k, w) :: rest else (a, v) :: (k, w) :: rest
    else if a = k then if v = Config.memFill then rest else (a, v) :: rest
    else (k, w) :: Memory.store rest a v

/-- The canonical form above a bound: addresses at least `lo`, strictly rising, inside the 4096 cells, none at the fill value. -/
def Memory.wfFrom : Nat → Memory → Bool
  | _, [] => true
  | lo, (k, v) :: rest => decide (lo ≤ k) && decide (k < 4096) && decide (v ≠ Config.memFill) && Memory.wfFrom (k + 1) rest

/-- The canonical form of memory (log 12). -/
def Memory.wf (m : Memory) : Bool := Memory.wfFrom 0 m

/-- MemRead(a, 1) (R32). -/
def memRead (s : State) (a : Addr) : Byte := Memory.lookup s.mem a.toNat

/-- MemWrite(a, 1, v) (R32). -/
def memWrite (s : State) (a : Addr) (v : Byte) : State := s.setMem (Memory.store s.mem a.toNat v)

/-- Consecutive bytes from `a` on, wrapping at the top of memory (R31, R184). -/
def Memory.storeList : Memory → Addr → List Byte → Memory
  | m, _, [] => m
  | m, a, b :: bs => Memory.storeList (Memory.store m a.toNat b) (a + 1) bs

/-! ### The call stack (10_state.md R13) -/

/-- push(STACK, v). -/
def pushStack (s : State) (v : Addr) : State := s.setStack (v :: s.stack)

/-- pop(STACK): the top and the state without it, none when the stack is empty. -/
def popStack (s : State) : Option (Addr × State) :=
  match s.stack with
  | [] => none
  | r :: rest => some (r, s.setStack rest)

/-! ### Program counter -/

/-- The advance by an instruction's size, modulo 4096 (R8, R12, R58). -/
def advancePc (s : State) (size : Addr) : State := s.setPc (s.pc + size)

/-! ### Devices (45_io.md) -/

/-- DevRead() (R101): the token at the read position and the state with the position moved past it; none when exhausted. -/
def devRead (s : State) : Option (Byte × State) :=
  match s.input.tokens[s.input.pos]? with
  | none => none
  | some t => some (t, s.setInput ⟨s.input.tokens, s.input.pos + 1⟩)

/-- DevWrite(b) (R102). -/
def devWrite (s : State) (b : Byte) : State := s.setOutput (s.output ++ [b])

/-! ### Fault entry -/

/-- Taking a fatal fault, the same for every cause (60_exceptions.md R161): the call stack cleared, PC at FAULT_PC, ERROR set,
RUNNING cleared, nothing saved, the cause not recorded (R166). There is no return from it (R170): only the host's Run and
PowerOn (HostPort.lean) leave the state it makes. -/
def takeFault (_cause : RuntimeFault) (s : State) : State :=
  (((s.setStack []).setPc Config.faultPc).setError true).setRunning false

end Sys2Proof.Machine
end

