-- ==== Sys2Proof/Machine/Operands.lean ====
section
/-! DEFINITION. The address resolution unit (20_memory.md section 3): the machine's only operand form is an address, direct or
through the one-shot pointer latch. -/
namespace Sys2Proof.Machine

/-- The 12-bit big-endian pointer at cells `p` and `p + 1`, the second wrapping past 0xFFF; the first cell's high nibble is
ignored (R37). -/
def pointerAt (s : State) (p : Addr) : Addr := addr12 (memRead s p) (memRead s (p + 1))

/-- Resolve(op12) (R36): the effective address, and the state with the latch spent. Clearing the latch in the direct case too
writes the value it already has. -/
def resolve (op12 : Addr) (s : State) : Addr × State :=
  (if s.latch then pointerAt s op12 else op12, s.setLatch false)

/-- Resolve and read the byte there: the memory operand of ADD, SUB, MULT, DIV and LD (R85, R90). -/
def resolveOperand (op12 : Addr) (s : State) : Byte × State :=
  (memRead s (resolve op12 s).1, (resolve op12 s).2)

end Sys2Proof.Machine
end

