-- ==== Sys2Proof/Machine/Flags.lean ====
section
/-! DEFINITION. The conditions and the one-bit flags. The machine has no condition flags (10_state.md R19): the conditional
jumps test ACC itself, and RUNNING, ERROR and LATCH are the only flags (R14, R15). -/
namespace Sys2Proof.Machine

/-- JZ's condition (40_jumps.md R71): all 8 bits of ACC zero. -/
def accZero (s : State) : Bool := s.acc == 0

/-- JN's condition (R72): `signed8(ACC) < 0`, that is bit 7. -/
def accNegative (s : State) : Bool := s.acc.msb

/-- The normal halt (60_exceptions.md R171): `RUNNING <- 0; ERROR <- 0` and nothing else. -/
def halt (s : State) : State := (s.setRunning false).setError false

/-- Arming the pointer latch (41_control.md R75). -/
def armLatch (s : State) : State := s.setLatch true

/-- Clearing the latch without using it (20_memory.md R38): a jump not taken, OS. -/
def clearLatch (s : State) : State := s.setLatch false

end Sys2Proof.Machine
end

