-- ==== Sys2Proof/Machine/Alu.lean ====
section
/-! DEFINITION. The accumulator ALU (42_arithmetic.md section 1): exact integer operations, the result reduced to 8 bits, no
flag. -/
namespace Sys2Proof.Machine

/-- signed8(b) (00_scope.md R7): two's complement, -128..127. -/
def signed8 (b : Byte) : Int := b.toInt

/-- trunc8(z) (R7): the byte congruent to `z` modulo 256. -/
def trunc8 (z : Int) : Byte := BitVec.ofInt 8 z

/-- The quotient of `a` by `m` under a rounding (R84). -/
def quotRounded (r : DivRound) (a m : Int) : Int :=
  match r with
  | .trunc => a.tdiv m
  | .floor => a.fdiv m

/-- Quot(a, m) for `m` not 0 (R84): fixed where `m` divides `a` exactly or the signs agree, else rounded as DIV_ROUND says. -/
def quot (a m : Int) : Int :=
  if a.tmod m = 0 ∨ (a < 0 ↔ m < 0) then a.tdiv m else quotRounded Config.divRound a m

/-- The common sequence of ADD, SUB and MULT (R85): resolve, read, operate exactly, truncate into ACC, advance by 2. -/
def arith (op : Int → Int → Int) (op12 : Addr) (s : State) : State :=
  let (m, s') := resolveOperand op12 s
  advancePc (s'.setAcc (trunc8 (op (signed8 s'.acc) (signed8 m)))) 2

end Sys2Proof.Machine
end

