-- ==== Sys2Proof/Machine/Arithmetic.lean ====
section
/-! DEFINITION. ADD, SUB, MULT, DIV (42_arithmetic.md section 2). -/
namespace Sys2Proof.Machine

/-- ADD (R81). -/
def execADD (op12 : Addr) (s : State) : Host.Outcome State Fault Refusal :=
  .next (arith (fun a m => a + m) op12 s)

/-- SUB (R82): the accumulator is the minuend. -/
def execSUB (op12 : Addr) (s : State) : Host.Outcome State Fault Refusal :=
  .next (arith (fun a m => a - m) op12 s)

/-- MULT (R83): the low 8 bits of the exact product. -/
def execMULT (op12 : Addr) (s : State) : Host.Outcome State Fault Refusal :=
  .next (arith (fun a m => a * m) op12 s)

/-- DIV (R84): the accumulator is the dividend; a zero divisor is the fatal fault DivideByZero, raised after resolution has
spent the latch and before ACC is written (R162, R167). -/
def execDIV (op12 : Addr) (s : State) : Host.Outcome State Fault Refusal :=
  let (m, s') := resolveOperand op12 s
  if m = 0 then .next (takeFault .divideByZero s')
  else .next (arith quot op12 s)

end Sys2Proof.Machine
end

