-- ==== Sys2Proof/Machine/Control.lean ====
section
/-! DEFINITION. CN (41_control.md), and the first bytes that select no instruction (30_encoding.md R55). -/
namespace Sys2Proof.Machine

/-- CN (R75): sub-operand 0 halts with PC unchanged, any other arms the latch and advances by 1. -/
def execCN (sub4 : Nibble) (s : State) : Host.Outcome State Fault Refusal :=
  .next (if sub4 = 0 then halt s else advancePc (armLatch s) 1)

/-- First byte 0xD0 to 0xDF: the fatal fault IllegalOpcode (R55, R165). -/
def execIllegalD (_low : Nibble) (s : State) : Host.Outcome State Fault Refusal :=
  .next (takeFault .illegalOpcode s)

/-- First byte 0xE0 to 0xEF: the fatal fault IllegalOpcode (R55, R165). -/
def execIllegalE (_low : Nibble) (s : State) : Host.Outcome State Fault Refusal :=
  .next (takeFault .illegalOpcode s)

/-- First byte 0xF0 to 0xFF: the fatal fault IllegalOpcode (R55, R165). -/
def execIllegalF (_low : Nibble) (s : State) : Host.Outcome State Fault Refusal :=
  .next (takeFault .illegalOpcode s)

end Sys2Proof.Machine
end

