-- ==== Sys2Proof/Machine/InputOutput.lean ====
section
/-! DEFINITION. IO (45_io.md section 1). -/
namespace Sys2Proof.Machine

/-- IO (R100): bit 0 of the sub-operand alone decides; 0 reads a token into ACC or raises InputExhausted, 1 writes ACC. The
latch is neither used nor cleared (R38). -/
def execIO (sub4 : Nibble) (s : State) : Host.Outcome State Fault Refusal :=
  if sub4.getLsbD 0 then .next (advancePc (devWrite s s.acc) 1)
  else
    match devRead s with
    | some (t, s') => .next (advancePc (s'.setAcc t) 1)
    | none => .next (takeFault .inputExhausted s)

end Sys2Proof.Machine
end

