-- ==== Sys2Proof/Machine/Jump.lean ====
section
/-! DEFINITION. JP, JZ, JN (40_jumps.md). Their conditions are the spec's general-knowledge reading of the mnemonics (G1 to
G3, D2; log 14). -/
namespace Sys2Proof.Machine

/-- A taken jump: `PC <- Resolve(op12)` (R70). -/
def jumpTo (op12 : Addr) (s : State) : State :=
  let (target, s') := resolve op12 s
  s'.setPc target

/-- A jump not taken: the latch cleared without a resolution, PC past the instruction (R71, R72, D21). -/
def fallThrough (s : State) : State := advancePc (clearLatch s) 2

/-- JP (R70). -/
def execJP (op12 : Addr) (s : State) : Host.Outcome State Fault Refusal :=
  .next (jumpTo op12 s)

/-- JZ (R71). -/
def execJZ (op12 : Addr) (s : State) : Host.Outcome State Fault Refusal :=
  .next (if accZero s then jumpTo op12 s else fallThrough s)

/-- JN (R72). -/
def execJN (op12 : Addr) (s : State) : Host.Outcome State Fault Refusal :=
  .next (if accNegative s then jumpTo op12 s else fallThrough s)

end Sys2Proof.Machine
end

