-- ==== Sys2Proof/Machine/LoadStore.lean ====
section
/-! DEFINITION. LD and MM (43_load_store.md). -/
namespace Sys2Proof.Machine

/-- LD (R90). -/
def execLD (op12 : Addr) (s : State) : Host.Outcome State Fault Refusal :=
  let (m, s') := resolveOperand op12 s
  .next (advancePc (s'.setAcc m) 2)

/-- MM (R91): stores all 8 bits of ACC; the only instruction that writes memory (G4, D2; log 14). -/
def execMM (op12 : Addr) (s : State) : Host.Outcome State Fault Refusal :=
  let (ea, s') := resolve op12 s
  .next (advancePc (memWrite s' ea s'.acc) 2)

end Sys2Proof.Machine
end

