-- ==== Sys2Proof/Machine/Subroutine.lean ====
section
/-! DEFINITION. SC and OS (44_subroutine_os.md). -/
namespace Sys2Proof.Machine

/-- SC (R95): pushes the address of the SC instruction itself and goes to the resolved target. -/
def execSC (op12 : Addr) (s : State) : Host.Outcome State Fault Refusal :=
  let (target, s') := resolve op12 s
  .next ((pushStack s' s'.pc).setPc target)

/-- OS (R96): the latch is cleared in every case; sub-operand 0 returns to the popped address plus RET_OFFSET, or halts with
PC unchanged on an empty stack; any other raises OsError. -/
def execOS (sub4 : Nibble) (s : State) : Host.Outcome State Fault Refusal :=
  let s' := clearLatch s
  if sub4 = 0 then
    match popStack s' with
    | some (r, s'') => .next (s''.setPc (r + Config.retOffset))
    | none => .next (halt s')
  else .next (takeFault .osError s')

end Sys2Proof.Machine
end

