-- ==== Sys2Proof/Machine/Dispatch.lean ====
section
/-! DEFINITION. Dispatch: one arm for each opcode class and each illegal nibble (30_encoding.md R54). -/
namespace Sys2Proof.Machine

def exec (i : Instr) (s : State) : Host.Outcome State Fault Refusal :=
  match i with
  | .jp op12 => Sys2Proof.Machine.execJP op12 s
  | .jz op12 => Sys2Proof.Machine.execJZ op12 s
  | .jn op12 => Sys2Proof.Machine.execJN op12 s
  | .cn sub4 => Sys2Proof.Machine.execCN sub4 s
  | .add op12 => Sys2Proof.Machine.execADD op12 s
  | .sub op12 => Sys2Proof.Machine.execSUB op12 s
  | .mult op12 => Sys2Proof.Machine.execMULT op12 s
  | .div op12 => Sys2Proof.Machine.execDIV op12 s
  | .ld op12 => Sys2Proof.Machine.execLD op12 s
  | .mm op12 => Sys2Proof.Machine.execMM op12 s
  | .sc op12 => Sys2Proof.Machine.execSC op12 s
  | .os sub4 => Sys2Proof.Machine.execOS sub4 s
  | .io sub4 => Sys2Proof.Machine.execIO sub4 s
  | .illegalD low => Sys2Proof.Machine.execIllegalD low s
  | .illegalE low => Sys2Proof.Machine.execIllegalE low s
  | .illegalF low => Sys2Proof.Machine.execIllegalF low s

end Sys2Proof.Machine
end

