-- ==== Sys2Proof/Machine/Fetch.lean ====
section
/-! DEFINITION. The fetch half of the FDU (30_encoding.md R54), and placing an instruction where it fetches. -/
namespace Sys2Proof.Machine

/-- The bytes of the instruction at PC: one, or two with the second at PC + 1 modulo 4096 (R51, R54, R31). -/
def fetchBytes (s : State) : List Byte :=
  if hasSecondByte (memRead s s.pc) then [memRead s s.pc, memRead s (s.pc + 1)] else [memRead s s.pc]

/-- The instruction at PC (R54). PC is not changed by the fetch. -/
def fetchInstr (s : State) : Instr :=
  if hasSecondByte (memRead s s.pc) then decodePair (memRead s s.pc) (memRead s (s.pc + 1)) else decodePair (memRead s s.pc) 0

/-- An instruction's bytes placed at PC and PC + 1 and the engine set running, as a load and a Run would have it (log 4). -/
def placeAtPc (s : State) (bytes : Byte × Byte) : State :=
  (memWrite (memWrite s s.pc bytes.1) (s.pc + 1) bytes.2).setRunning true

end Sys2Proof.Machine
end

