-- ==== Sys2Proof/Machine/Sru.lean ====
section
/-! DEFINITION. The symbol resolution unit (46_assembler_symbol_resolution.md): tokens, the two passes line by line, the whole
assembly as a pure function, and the same assembly as an agent that takes one line a step (log 6). -/
namespace Sys2Proof.Machine

/-! ### Lines and tokens (R111, R112, R120) -/

/-- Whitespace is space and horizontal tab (R111, D24). -/
def isBlank (c : Char) : Bool := c == ' ' || c == '\t'

/-- The maximal runs of non-whitespace characters, in order (R111); `acc` is the run being read, reversed. -/
def splitTokens : List Char → Line → List Token
  | acc, [] => if acc.isEmpty then [] else [acc.reverse]
  | acc, c :: cs =>
    if isBlank c then if acc.isEmpty then splitTokens [] cs else acc.reverse :: splitTokens [] cs
    else splitTokens (c :: acc) cs

/-- The upper case of one character (R111, D23); outside ASCII a free value (log 8). -/
def foldChar (c : Char) : List Char :=
  if c.toNat < 128 then
    if 97 ≤ c.toNat ∧ c.toNat ≤ 122 then [Char.ofNat (c.toNat - 32)] else [c]
  else Config.foldNonAscii c

/-- A token folded to upper case (R111). -/
def foldToken (t : Token) : Token := t.flatMap foldChar

/-- The tokens of a line, folded (R111, R123). -/
def tokens (text : Line) : List Token := (splitTokens [] text).map foldToken

/-- A line whose first character is not whitespace is a label line (R112); meant for lines that have a token. -/
def isLabelLine (text : Line) : Bool :=
  match text with
  | [] => false
  | c :: _ => !isBlank c

/-- The value of a hex digit, upper case as every token is (R120). -/
def hexDigit (c : Char) : Option Nat :=
  if 48 ≤ c.toNat ∧ c.toNat ≤ 57 then some (c.toNat - 48)
  else if 65 ≤ c.toNat ∧ c.toNat ≤ 70 then some (c.toNat - 55)
  else none

/-- The number the rest of a hex literal spells after `v`. -/
def hexFrom : Nat → List Char → Option Nat
  | v, [] => some v
  | v, c :: cs =>
    match hexDigit c with
    | some d => hexFrom (16 * v + d) cs
    | none => none

/-- The value of a hex literal, one or more digits (R120); none for any other token. -/
def hexValue (t : Token) : Option Nat := if t.isEmpty then none else hexFrom 0 t

/-! ### Symbols (R113, R124) -/

/-- The pseudo-instruction `@` Origin (R117). -/
def tokOrigin : Token := ['@']

/-- The pseudo-instruction `#` End (R118). -/
def tokEnd : Token := ['#']

/-- The pseudo-instruction `K` Constant (R115). -/
def tokConstant : Token := ['K']

/-- A reserved name: a mnemonic, `@`, `#` or `K` (R113). -/
def isReserved (t : Token) : Bool := (catalogByName t).isSome || t == tokOrigin || t == tokEnd || t == tokConstant

/-- Lookup in SYMTAB. -/
def symLookup : List (Token × Addr) → Token → Option Addr
  | [], _ => none
  | (name, a) :: rest, t => if name = t then some a else symLookup rest t

/-- ResolveOperand (R126): a label first, then a hex literal reduced to 12 bits; none is UnresolvedOperand. -/
def resolveToken (symtab : List (Token × Addr)) (t : Token) : Option Addr :=
  match symLookup symtab t with
  | some a => some a
  | none => (hexValue t).map (BitVec.ofNat 12)

/-! ### The passes, line by line -/

/-- What taking up one line leads to. -/
inductive LineResult where
  /-- The SRU goes on with the next line. -/
  | next (r : Sru)
  /-- The pass is over: an End line (R118) or the end of the text (D25). -/
  | finish (r : Sru)
  /-- The assembly is aborted with this error at this line (R130). -/
  | error (e : SruError) (line : Nat)
deriving DecidableEq, Repr

/-- The state in which an assembly of `source` starts: every register reset (R20, R110). -/
def Sru.start (source : List Line) : Sru := { Sru.idle with phase := .pass1, source := source }

/-- CURSOR and COUNT moved on by `size` bytes (R115, R119). -/
def Sru.reserve (r : Sru) (size : Nat) : Sru :=
  { r with cursor := r.cursor + BitVec.ofNat 12 size, count := r.count + size }

/-- SYMTAB[name] <- CURSOR (R114, R115). -/
def Sru.declare (r : Sru) (name : Token) : Sru := { r with symtab := (name, r.cursor) :: r.symtab }

/-- A label line of pass 1 with first token `name` and the other tokens `ts` (R113 to R116, R124). -/
def pass1Label (r : Sru) (name : Token) (ts : List Token) : LineResult :=
  if isReserved name then .error .reservedName r.line
  else if (symLookup r.symtab name).isSome then .error .duplicateLabel r.line
  else
    match ts with
    | [] => .next (r.declare name)
    | t2 :: _ => if t2 = tokConstant then .next ((r.declare name).reserve 1) else .error .badLabelDirective r.line

/-- A statement line of pass 1 with first token `t1` and the other tokens `ts` (R117 to R119). -/
def pass1Statement (r : Sru) (t1 : Token) (ts : List Token) : LineResult :=
  if t1 = tokOrigin then
    match ts with
    | [] => .error .badOrigin r.line
    | t2 :: _ =>
      match hexValue t2 with
      | some v => .next { r with cursor := BitVec.ofNat 12 v }
      | none => .error .badOrigin r.line
  else if t1 = tokEnd then .finish r
  else
    match catalogByName t1 with
    | some row => .next (r.reserve row.size)
    | none => .error .unknownMnemonic r.line

/-- One line of pass 1 (R123), `r.line` being its number. -/
def pass1Line (r : Sru) (text : Line) : LineResult :=
  match tokens text with
  | [] => .next r
  | t1 :: ts => if isLabelLine text then pass1Label r t1 ts else pass1Statement r t1 ts

/-- emit(b): the byte appended to OBJ and added to CHK (R125). -/
def Sru.emit (r : Sru) (b : Byte) : Sru := { r with obj := r.obj ++ [b], chk := r.chk + b }

/-- Several bytes emitted in order. -/
def Sru.emitList (r : Sru) (bs : List Byte) : Sru := bs.foldl Sru.emit r

/-- From pass 1 to pass 2: OBJ and CHK start afresh, the first line is next (R125). -/
def Sru.beginPass2 (r : Sru) : Sru := { r with phase := .pass2, line := 0, obj := [], chk := 0 }

/-- The start of pass 2 (R122, R125, R129): line 1 must be an Origin; then its extra tokens; then the length; then the
header. A source with no line has no Origin (log 9). ObjectTooLong names the text's last line, also where lines follow the End
line: DESIGN CHOICE, log 21. -/
def emitHeader (r : Sru) : LineResult :=
  match r.source with
  | [] => .error .missingOrigin 1
  | text :: _ =>
    match tokens text with
    | t1 :: t2 :: ts =>
      if isLabelLine text || t1 != tokOrigin then .error .missingOrigin 1
      else
        match hexValue t2 with
        | none => .error .missingOrigin 1
        | some v =>
          if !ts.isEmpty then .error .extraToken 1
          else if Config.objMaxLen < r.count then .error .objectTooLong r.source.length
          else .next ({ r with line := 1 }.emitList
            [BitVec.ofNat 8 (v % 4096 / 256), BitVec.ofNat 8 v, BitVec.ofNat 8 r.count])
    | _ => .error .missingOrigin 1

/-- A label line of pass 2 (R114, R115): a code label emits nothing, a constant its byte. -/
def pass2Label (r : Sru) (ts : List Token) : LineResult :=
  match ts with
  | [] => .next r
  | [_] => .error .badConstant r.line
  | _ :: t3 :: extra =>
    match hexValue t3 with
    | none => .error .badConstant r.line
    | some v =>
      if 255 < v then .error .badConstant r.line
      else if !extra.isEmpty then .error .extraToken r.line
      else .next (r.emit (BitVec.ofNat 8 v))

/-- A statement line of pass 2 (R117 to R119, R126). A first token that pass 1 would have refused is refused (log 10). -/
def pass2Statement (r : Sru) (t1 : Token) (ts : List Token) : LineResult :=
  if t1 = tokEnd then if ts.isEmpty then .finish r else .error .extraToken r.line
  else if t1 = tokOrigin then if 1 < ts.length then .error .extraToken r.line else .next r
  else
    match catalogByName t1 with
    | none => .error .unknownMnemonic r.line
    | some row =>
      match ts with
      | [] => .error .unresolvedOperand r.line
      | [t2] =>
        match resolveToken r.symtab t2 with
        | some v => .next (r.emitList (encodeRow row v))
        | none => .error .unresolvedOperand r.line
      | _ => .error .extraToken r.line

/-- One line of pass 2 after the first (R125), `r.line` being its number. -/
def pass2Line (r : Sru) (text : Line) : LineResult :=
  match tokens text with
  | [] => .next r
  | t1 :: ts => if isLabelLine text then pass2Label r ts else pass2Statement r t1 ts

/-- The SRU with LINE moved to the next line. -/
def Sru.nextLine (r : Sru) : Sru := { r with line := r.line + 1 }

/-! ### The assembly as a pure function (R110) -/

/-- Pass 1 over the lines still to come (R123). -/
def pass1 : List Line → Sru → LineResult
  | [], r => .finish r
  | text :: rest, r =>
    match pass1Line r.nextLine text with
    | .next r' => pass1 rest r'
    | .finish r' => .finish r'
    | .error e n => .error e n

/-- Pass 2 over the lines still to come, after the header (R125). -/
def pass2 : List Line → Sru → LineResult
  | [], r => .finish r
  | text :: rest, r =>
    match pass2Line r.nextLine text with
    | .next r' => pass2 rest r'
    | .finish r' => .finish r'
    | .error e n => .error e n

/-- The object stream of a finished pass 2: OBJ with the checksum byte appended (R125, R127). -/
def Sru.objectStream (r : Sru) : List Byte := r.obj ++ [r.chk]

/-- Pass 2 with its header, from the end of pass 1 (R125). -/
def assemblePass2 (r : Sru) : SruResult :=
  match emitHeader r.beginPass2 with
  | .error e n => .error e n
  | .next r' | .finish r' =>
    match pass2 r'.source.tail r' with
    | .error e n => .error e n
    | .next r'' | .finish r'' => .object r''.objectStream

/-- The assembly of a source text: an object stream or one error (R110, R123, R125). -/
def assemble (source : List Line) : SruResult :=
  match pass1 source (Sru.start source) with
  | .error e n => .error e n
  | .next r | .finish r => assemblePass2 r

/-! ### The assembly as an agent (log 6) -/

/-- One step of pass 1: the next line, or the end of the text. -/
def Sru.stepPass1 (r : Sru) : Sru × Option SruResult :=
  match r.source.drop r.line with
  | [] => (r.beginPass2, none)
  | text :: _ =>
    match pass1Line r.nextLine text with
    | .next r' => (r', none)
    | .finish r' => (r'.beginPass2, none)
    | .error e n => (Sru.idle, some (.error e n))

/-- One step of pass 2: the header, the next line, or the end of the text. A finished assembly leaves every register at its
reset value (R20; log 7). -/
def Sru.stepPass2 (r : Sru) : Sru × Option SruResult :=
  if r.line = 0 then
    match emitHeader r with
    | .next r' | .finish r' => (r', none)
    | .error e n => (Sru.idle, some (.error e n))
  else
    match r.source.drop r.line with
    | [] => (Sru.idle, some (.object r.objectStream))
    | text :: _ =>
      match pass2Line r.nextLine text with
      | .next r' => (r', none)
      | .finish r' => (Sru.idle, some (.object r'.objectStream))
      | .error e n => (Sru.idle, some (.error e n))

/-- One step of the SRU: its new state and, when the assembly ends, the result. -/
def Sru.advance (r : Sru) : Sru × Option SruResult :=
  match r.phase with
  | .idle => (r, none)
  | .pass1 => r.stepPass1
  | .pass2 => r.stepPass2

end Sys2Proof.Machine
end

