-- ==== Sys2Proof/Machine/HostPort.lean ====
section
/-! DEFINITION. What happens while the engine is not running: the SRU takes its next line, or the host's oldest pending command
is executed, or nothing (70_reset_and_hazards.md R180 to R185; log 4, 5, 6). -/
namespace Sys2Proof.Machine

/-- A reply given to the host. -/
def addReply (s : State) (r : HostReply) : State := s.setReplies (s.replies ++ [r])

/-- The plain sum of some bytes modulo 256 (46 R127). -/
def checksum (bs : List Byte) : Byte := bs.foldl (fun c b => c + b) 0

/-- HostLoad on memory (R184): the memory with the payload placed and whether the checksum matched; none for a stream whose
length is not LL + 4, a stream without a length byte among them (log 11). The upper four bits of the address field are
dropped (C10) and the checksum is not enforced (R185). -/
def loadObject (obj : List Byte) (m : Memory) : Option (Memory × Bool) :=
  match obj with
  | hi :: lo :: len :: rest =>
    if rest.length = len.toNat + 1 then
      let payload := rest.take len.toNat
      some (Memory.storeList m (addr12 hi lo) payload,
        rest.drop len.toNat == [checksum (hi :: lo :: len :: payload)])
    else none
  | _ => none

/-- PowerOn (R180): the engine as created; the SRU and the host's own lists are no part of it (log 20). -/
def hostPowerOn (accReset : Byte) (s : State) : State := { s with toEngine := Engine.powerOn accReset }

/-- Run(start, input) (R181) up to the fetch loop, which the steps that follow are (R59). -/
def hostRun (start : Nat) (input : List Byte) (s : State) : State :=
  ((((s.setPc (BitVec.ofNat 12 start)).setError false).setRunning true).setInput ⟨input, 0⟩).setOutput []

/-- HostLoad(obj) (R184, R185). -/
def hostLoad (obj : List Byte) (s : State) : State :=
  match loadObject obj s.mem with
  | some (m, ok) => addReply (s.setMem m) (.loaded ok)
  | none => addReply s .loadRefused

/-- HostPeek(a) (R183). -/
def hostPeek (a : Nat) (s : State) : State := addReply s (.peeked (memRead s (BitVec.ofNat 12 a)))

/-- HostPoke(a, v) (R183). -/
def hostPoke (a v : Nat) (s : State) : State := memWrite s (BitVec.ofNat 12 a) (BitVec.ofNat 8 v)

/-- Observation of every piece of the engine's state (R4, R183). -/
def hostObserve (s : State) : State := addReply s (.observed s.toEngine)

/-- A source text handed to the SRU (R4, R110). -/
def hostAssemble (source : List Line) (s : State) : State := s.setSru (Sru.start source)

/-- One host command. -/
def hostDo (c : HostCommand) (s : State) : State :=
  match c with
  | .powerOn accReset => hostPowerOn accReset s
  | .run start input => hostRun start input s
  | .load obj => hostLoad obj s
  | .peek a => hostPeek a s
  | .poke a v => hostPoke a v s
  | .observe => hostObserve s
  | .assemble source => hostAssemble source s

/-- The SRU's step inside the machine; a result goes to the host (R4). -/
def sruStep (s : State) : State :=
  match s.sru.advance with
  | (r, some result) => addReply (s.setSru r) (.assembled result)
  | (r, none) => s.setSru r

/-- The oldest pending host command executed, or nothing: "a halted engine does nothing until the host acts" (R171). -/
def hostStep (s : State) : State :=
  match s.host with
  | [] => s
  | c :: rest => hostDo c (s.setHost rest)

/-- A step while RUNNING = 0. -/
def idleStep (s : State) : State := if s.sru.phase = .idle then hostStep s else sruStep s

end Sys2Proof.Machine
end

