-- ==== Sys2Proof/Machine/Step.lean ====
section
/-! DEFINITION. One step of the machine. -/
namespace Sys2Proof.Machine

/-- While RUNNING = 1, fetch, decode and dispatch one instruction (30_encoding.md R54, R59); otherwise what the SRU and the
host do (HostPort.lean). -/
def step (s : State) : Host.Outcome State Fault Refusal :=
  if s.running then exec (fetchInstr s) s else .next (idleStep s)

/-- `s` with an instruction, its bits numbered as spec/opcode_table.json numbers them, placed where the next step fetches, and
the engine running (log 4, log 16). -/
def State.withFetchWord (s : State) (nbits w : Nat) : State := placeAtPc s (tableBytes nbits w)

end Sys2Proof.Machine
end

