-- ==== Sys2Proof/Machine/TokenText.lean ====
section
/-! DEFINITION. The text form of a byte stream, for hosts that keep the streams as text (45_io.md R103). The engine never sees
it. The delimiter TOKEN_DELIM is OPEN (R6, D32) and stands as an argument (log 3). -/
namespace Sys2Proof.Machine

/-- The upper-case hex digit of a nibble (R103). -/
def hexChar (n : Nibble) : Char :=
  if n.toNat < 10 then Char.ofNat (48 + n.toNat) else Char.ofNat (55 + n.toNat)

/-- A token: two upper-case hex digits, high nibble first (R103, D15). -/
def tokenText (b : Byte) : List Char := [hexChar (b.extractLsb' 4 4), hexChar (b.extractLsb' 0 4)]

/-- A stream as text: "each token two uppercase hex digits plus a delimiter" (R128). -/
def renderTokens (delim : List Char) : List Byte → List Char
  | [] => []
  | b :: bs => tokenText b ++ delim ++ renderTokens delim bs

/-- A hex digit of either case (R103, D15). -/
def textDigit (c : Char) : Option Nat :=
  if 97 ≤ c.toNat ∧ c.toNat ≤ 102 then some (c.toNat - 87) else hexDigit c

/-- `text` without the prefix `p`, none when it does not begin with it. -/
def dropText : List Char → List Char → Option (List Char)
  | [], text => some text
  | _ :: _, [] => none
  | p :: ps, c :: cs => if p = c then dropText ps cs else none

/-- The bytes a text spells, at most `fuel` of them; none when it is not a sequence of two-hex-digit tokens, each followed
by the delimiter, which the last token may go without (R103, D34; log 3). -/
def parseFrom (delim : List Char) : Nat → List Char → Option (List Byte)
  | _, [] => some []
  | 0, _ :: _ => none
  | _ + 1, [_] => none
  | fuel + 1, hi :: lo :: rest =>
    match textDigit hi, textDigit lo with
    | some h, some l =>
      if rest.isEmpty then some [BitVec.ofNat 8 (16 * h + l)]
      else
        match dropText delim rest with
        | some rest' => (parseFrom delim fuel rest').map (BitVec.ofNat 8 (16 * h + l) :: ·)
        | none => none
    | _, _ => none

/-- The bytes a text spells; none for a malformed text, which is refused before the run or the load (D34, U12). -/
def parseTokens (delim text : List Char) : Option (List Byte) := parseFrom delim text.length text

end Sys2Proof.Machine
end

