-- ==== Sys2Proof/Safety.lean ====
section
/-! DEFINITION. The terms in which claims are stated: what a step leaves alone, the effective address in numbers, which fault an
instruction raises, the invariant of the machine, and a run without a fault. None of it is used by the machine. -/
namespace Sys2Proof

/-- The 12-bit operand of a size-2 instruction (30_encoding.md R52). -/
def Instr.op12? : Instr → Option Addr
  | .jp a | .jz a | .jn a | .add a | .sub a | .mult a | .div a | .ld a | .mm a | .sc a => some a
  | .cn _ | .os _ | .io _ | .illegalD _ | .illegalE _ | .illegalF _ => none

/-- The 4-bit sub-operand of a size-1 instruction (R52). -/
def Instr.sub4? : Instr → Option Nibble
  | .cn n | .os n | .io n => some n
  | .jp _ | .jz _ | .jn _ | .add _ | .sub _ | .mult _ | .div _ | .ld _ | .mm _ | .sc _ => none
  | .illegalD _ | .illegalE _ | .illegalF _ => none

namespace Machine

/-! ### What is left alone -/

/-- Every byte of memory reads as before. -/
def sameMemory (s t : State) : Prop := ∀ a : Addr, memRead t a = memRead s a

/-- Every byte of memory but the one at `ea` reads as before. -/
def sameMemoryExcept (ea : Addr) (s t : State) : Prop := ∀ a : Addr, a ≠ ea → memRead t a = memRead s a

/-- Both device streams as before. -/
def sameDevices (s t : State) : Prop := t.input = s.input ∧ t.output = s.output

/-- RUNNING and ERROR as before. -/
def sameRunFlags (s t : State) : Prop := t.running = s.running ∧ t.error = s.error

/-- The SRU and the host's lists as before. -/
def sameOutside (s t : State) : Prop := t.sru = s.sru ∧ t.host = s.host ∧ t.replies = s.replies

/-- Every piece of the SRU's state but SYMTAB, CURSOR and COUNT as before. -/
def sameEmission (r r' : Sru) : Prop :=
  r'.phase = r.phase ∧ r'.source = r.source ∧ r'.line = r.line ∧ r'.obj = r.obj ∧ r'.chk = r.chk

/-- The bytes `bs` emitted (46 R125): appended to OBJ and summed into CHK, every other piece of the SRU's state as before. -/
def emits (bs : List Byte) (r r' : Sru) : Prop :=
  r'.obj = r.obj ++ bs ∧ r'.chk.toNat = (r.chk.toNat + (bs.map BitVec.toNat).sum) % 256 ∧ r'.phase = r.phase ∧
  r'.source = r.source ∧ r'.symtab = r.symtab ∧ r'.cursor = r.cursor ∧ r'.count = r.count ∧ r'.line = r.line

/-- `name` is bound to `a` in SYMTAB, and every other name as before. -/
def bindsOnly (name : Token) (a : Addr) (r r' : Sru) : Prop :=
  symLookup r'.symtab name = some a ∧ ∀ n, n ≠ name → symLookup r'.symtab n = symLookup r.symtab n

/-! ### Addresses and faults in the spec's own terms -/

/-- The effective address as a number (20_memory.md R36, R37): the operand, or with the latch armed the low 12 bits of the
big-endian pair of cells at the operand. -/
def addressOf (s : State) (op12 : Addr) : Nat :=
  if s.latch then (256 * (memRead s op12).toNat + (memRead s (op12 + 1)).toNat) % 4096 else op12.toNat

/-- The byte at the effective address. -/
def operandOf (s : State) (op12 : Addr) : Byte := Memory.lookup s.mem (addressOf s op12)

/-- The fault an instruction raises in a state, by the list of 60_exceptions.md R160. -/
def faultRaised (i : Instr) (s : State) : Option RuntimeFault :=
  match i with
  | .div op12 => if operandOf s op12 = 0 then some .divideByZero else none
  | .io sub4 => if sub4.toNat % 2 = 0 ∧ s.input.tokens.length ≤ s.input.pos then some .inputExhausted else none
  | .os sub4 => if sub4.toNat = 0 then none else some .osError
  | .illegalD _ | .illegalE _ | .illegalF _ => some .illegalOpcode
  | .jp _ | .jz _ | .jn _ | .cn _ | .add _ | .sub _ | .mult _ | .ld _ | .mm _ | .sc _ => none

/-- What every fault leaves (R161): the state of Halted(error). -/
def haltedWithError (t : State) : Prop := t.stack = [] ∧ t.pc.toNat = 0 ∧ t.error = true ∧ t.running = false

/-- The instructions that halt (60_exceptions.md R171): CN 0, and OS 0 on an empty stack. -/
def haltsNormally (i : Instr) (s : State) : Prop :=
  i = .cn 0 ∨ (i = .os 0 ∧ s.stack = [])

/-! ### Invariants -/

/-- What holds of the SRU between steps: idle means every register reset (10_state.md R20); the symbol table has no name twice
(46 R124) and no reserved name (R113); CHK is the plain sum of OBJ modulo 256 (R127); nothing is emitted before pass 2's
header; LINE is within the text. -/
structure Sru.Wf (r : Sru) : Prop where
  idle_reset   : r.phase = .idle → r = Sru.idle
  names_once   : (r.symtab.map Prod.fst).Nodup
  not_reserved : ∀ e ∈ r.symtab, isReserved e.1 = false
  chk_sum      : r.chk.toNat = (r.obj.map BitVec.toNat).sum % 256
  obj_empty    : r.phase = .pass1 ∨ r.line = 0 → r.obj = []
  line_bound   : r.line ≤ r.source.length

/-- What holds of the machine between steps: memory in its canonical form (log 12); the read position within IN (45_io.md
R101); ERROR set only in the state every fault leaves (10_state.md R15, 60_exceptions.md R175); the SRU at rest while the engine
runs (log 6); and the SRU's own invariant. -/
structure MachineInv (s : State) : Prop where
  mem_canonical : Memory.wf s.mem = true
  input_pos     : s.input.pos ≤ s.input.tokens.length
  error_halted  : s.error = true → haltedWithError s
  sru_rests     : s.running = true → s.sru.phase = .idle
  sru_wf        : Sru.Wf s.sru

/-- A run of `n` steps in which no fault is taken: safety, in this package's sense. -/
def FaultFree (n : Nat) (s : State) : Prop := ∀ k ≤ n, ∀ t, core.run k s = .next t → t.error = false

end Machine

end Sys2Proof
end

