-- ==== Sys2Proof/Certificates/Slice0/Obligations.lean ====
section
/-! DEFINITION. The statements for the provers. Each docstring names the rule of spec/ it formalises; a clause that rests on a
decision the spec marks as its own (D<n>), on general knowledge (G<n>) or on a log entry says so. -/

open Sys2Proof Sys2Proof.Machine

/-! ### Encoding -/

/-- 30_encoding.md R50, R52, R53, R60: decoding the bytes of any instruction, followed by anything, gives it back with every
operand and leaves what follows. The illegal nibbles' one byte is the model's (log 17). -/
def Obligations.DecodeOfEncodeGivesInstrBack : Prop :=
  ∀ (i : Instr) (rest : List Byte), decode (encode i ++ rest) = .ok i rest

/-- R50 to R53, R57: each byte sequence has one reading, and the encoder writes back exactly the bytes the decoder took. -/
def Obligations.EncodeOfDecodeGivesBytesBack : Prop :=
  ∀ (bs : List Byte) (i : Instr) (rest : List Byte), decode bs = .ok i rest → encode i ++ rest = bs

/-- R50, R53 and 95_test_vectors.md S8: words written out from the formats decode to the instructions they stand for. -/
def Obligations.SpecWordsDecodeToTheirInstr : Prop :=
  decode [0x0A, 0xBC] = .ok (.jp 0xABC) [] ∧ decode [0x32] = .ok (.cn 2) [] ∧ decode [0x6F, 0xFF] = .ok (.mult 0xFFF) [] ∧
  decode [0x80, 0x00] = .ok (.ld 0x000) [] ∧ decode [0xA2, 0x07] = .ok (.sc 0x207) [] ∧ decode [0xB0] = .ok (.os 0) [] ∧
  decode [0xC1] = .ok (.io 1) [] ∧ decode [0xE5] = .ok (.illegalE 5) []

/-- R51: the opcode nibble of the first byte alone decides the length: 3, B, C one byte; 0, 1, 2 and 4 to A two bytes; D, E, F
have no catalog entry and so no length. What is fetched depends on the bytes at PC and on nothing else of the state. -/
def Obligations.LengthDecidedByFirstNibble : Prop :=
  (∀ (b1 b2 : Byte) (rest : List Byte),
    (b1.toNat / 16 ∈ [0x3, 0xB, 0xC] → ∃ i, decode (b1 :: b2 :: rest) = .ok i (b2 :: rest) ∧ i.wf = true) ∧
    (b1.toNat / 16 ∈ [0x0, 0x1, 0x2, 0x4, 0x5, 0x6, 0x7, 0x8, 0x9, 0xA] →
      ∃ i, decode (b1 :: b2 :: rest) = .ok i rest ∧ i.wf = true) ∧
    (b1.toNat / 16 ∈ [0xD, 0xE, 0xF] → catalogByNibble (opcodeNibble b1) = none)) ∧
  (∀ s t : State, t.pc = s.pc → memRead t s.pc = memRead s s.pc → memRead t (s.pc + 1) = memRead s (s.pc + 1) →
    fetchInstr t = fetchInstr s)

/-- R52: the operand is the low nibble of byte 1 followed by byte 2, the sub-operand the low nibble of byte 1, both unsigned;
every catalog instruction has the one or the other. -/
def Obligations.OperandFieldsAssembled : Prop :=
  ∀ (b1 b2 : Byte) (rest : List Byte) (i : Instr) (r : List Byte), decode (b1 :: b2 :: rest) = .ok i r →
    (∀ v, i.op12? = some v → v.toNat = (b1.toNat % 16) * 256 + b2.toNat) ∧
    (∀ n, i.sub4? = some n → n.toNat = b1.toNat % 16) ∧
    (i.wf = true → (i.op12?.isSome = true ↔ i.sub4?.isSome = false))

/-- R60: the bytes the SRU emits for a catalog row and a 12-bit value, and what decoding them gives back. -/
def Obligations.EmittedInstructionBytesDecode : Prop :=
  ∀ row ∈ catalog, ∀ (v : Addr) (rest : List Byte),
    (row.size = 1 → encodeRow row v = [BitVec.ofNat 8 (16 * row.nibble.toNat + v.toNat % 16)]) ∧
    (row.size = 2 → encodeRow row v =
      [BitVec.ofNat 8 (16 * row.nibble.toNat + v.toNat / 256), BitVec.ofNat 8 (v.toNat % 256)]) ∧
    ∃ i, decode (encodeRow row v ++ rest) = .ok i rest ∧ i.mnemonic? = some row.mnemonic ∧
      (row.size = 2 → i.op12? = some v) ∧ (row.size = 1 → i.sub4?.map BitVec.toNat = some (v.toNat % 16))

/-! ### The step -/

/-- R54: when the bytes at PC (the second at PC + 1 modulo 4096) decode to an instruction, a step of the running engine is that
instruction's execution, with nothing added around it; PC is not changed by the fetch. -/
def Obligations.StepRunsTheDecodedInstr : Prop :=
  ∀ (s : State) (i : Instr) (rest : List Byte), s.running = true →
    decode [memRead s s.pc, memRead s (s.pc + 1)] = .ok i rest → step s = exec i s

/-- 60_exceptions.md R171: a halted engine does nothing until the host acts (with no assembly in progress; log 4, 6). -/
def Obligations.StoppedEngineDoesNothing : Prop :=
  ∀ s : State, s.running = false → s.sru.phase = .idle → s.host = [] → step s = .next s

/-- R5, R160, R161: every step answers a next state; no state, reachable or not, stops the model (log 13). -/
def Obligations.EveryStepAnswersNextState : Prop :=
  ∀ s : State, ∃ t, step s = .next t

/-- The invariant holds right after power-on (10_state.md R20, R21). -/
def Obligations.ResetMeetsInvariant : Prop := MachineInv State.reset

/-- Every step keeps the invariant: memory canonical, the read position within IN (R101), ERROR only with RUNNING 0, PC 0 and an
empty stack (R15, R175), the SRU at rest while the engine runs (log 6), the SRU's registers consistent (R20, R113, R124,
R127). -/
def Obligations.StepKeepsInvariant : Prop :=
  ∀ s t : State, MachineInv s → step s = .next t → MachineInv t

/-- 00_scope.md R3, R5: while the engine runs, a step depends on the engine's own state alone. That the SRU rests and the host's
pending commands and replies stand still meanwhile is the model's: the agents' order (log 6) and the lists (log 5) are DESIGN
CHOICES. -/
def Obligations.EngineStepDependsOnEngineAlone : Prop :=
  ∀ s s' : State, s.running = true → s'.toEngine = s.toEngine →
    ∃ t t', step s = .next t ∧ step s' = .next t' ∧ t'.toEngine = t.toEngine ∧ sameOutside s t ∧ sameOutside s' t'

/-- R3, 46 R110: the SRU's steps leave every piece of engine state alone. That the host's pending commands wait meanwhile is the
model's: the list of them (log 5) and the agents' order (log 6) are DESIGN CHOICES. -/
def Obligations.SruStepLeavesEngineAlone : Prop :=
  ∀ s : State, s.running = false → s.sru.phase ≠ .idle → ∃ t, step s = .next t ∧ t.toEngine = s.toEngine ∧ t.host = s.host

/-! ### Address resolution -/

/-- 20_memory.md R36 (which 12 of the pointer's 16 bits count is the spec's D7): with the latch clear the literal operand; with
the latch armed the low 12 bits of the big-endian byte pair at the operand, the second cell at the next address modulo 4096; in
both cases the latch ends clear and nothing else changes. -/
def Obligations.ResolveGivesTheSpecAddress : Prop :=
  ∀ (op12 : Addr) (s : State),
    (s.latch = false → (resolve op12 s).1.toNat = op12.toNat) ∧
    (s.latch = true → (resolve op12 s).1.toNat =
      (256 * (memRead s op12).toNat + (memRead s (BitVec.ofNat 12 (op12.toNat + 1))).toNat) % 4096) ∧
    (resolve op12 s).2.latch = false ∧
    (resolve op12 s).2.acc = s.acc ∧ (resolve op12 s).2.pc = s.pc ∧ (resolve op12 s).2.stack = s.stack ∧
    sameRunFlags s (resolve op12 s).2 ∧ sameMemory s (resolve op12 s).2 ∧ sameDevices s (resolve op12 s).2 ∧
    sameOutside s (resolve op12 s).2

/-! ### Instructions -/

/-- 40_jumps.md R70 (its meaning is the spec's general knowledge G1, D2): JP always goes to the resolved address and spends the
latch; nothing else changes. -/
def Obligations.JPGoesToResolvedAddress : Prop :=
  ∀ (op12 : Addr) (s : State), ∃ t, exec (.jp op12) s = .next t ∧ t.pc.toNat = addressOf s op12 ∧ t.latch = false ∧
    t.acc = s.acc ∧ t.stack = s.stack ∧ sameRunFlags s t ∧ sameMemory s t ∧ sameDevices s t ∧ sameOutside s t

/-- R71 (condition G2, D2; the fall-through D3, D21 are the spec's own): JZ jumps when all 8 bits of ACC are zero, else
advances by 2 modulo 4096; the latch ends clear either way; nothing else changes. -/
def Obligations.JZJumpsOnZero : Prop :=
  ∀ (op12 : Addr) (s : State), ∃ t, exec (.jz op12) s = .next t ∧
    t.pc.toNat = (if s.acc.toNat = 0 then addressOf s op12 else (s.pc.toNat + 2) % 4096) ∧ t.latch = false ∧
    t.acc = s.acc ∧ t.stack = s.stack ∧ sameRunFlags s t ∧ sameMemory s t ∧ sameDevices s t ∧ sameOutside s t

/-- R72 (condition G3, D2; the fall-through D3, D21 are the spec's own): JN jumps when ACC is negative as a signed byte, else
advances by 2 modulo 4096; the latch ends clear either way; nothing else changes. -/
def Obligations.JNJumpsOnNegative : Prop :=
  ∀ (op12 : Addr) (s : State), ∃ t, exec (.jn op12) s = .next t ∧
    t.pc.toNat = (if 128 ≤ s.acc.toNat then addressOf s op12 else (s.pc.toNat + 2) % 4096) ∧ t.latch = false ∧
    t.acc = s.acc ∧ t.stack = s.stack ∧ sameRunFlags s t ∧ sameMemory s t ∧ sameDevices s t ∧ sameOutside s t

/-- 41_control.md R75 (PC, stack and latch at a halt: the spec's D4, D36; all nonzero values alike: D6): CN 0 clears RUNNING and
ERROR and changes nothing else; any other sub-operand arms the latch and advances by 1 modulo 4096. -/
def Obligations.CNHaltsOrArmsLatch : Prop :=
  ∀ (sub4 : Nibble) (s : State), ∃ t, exec (.cn sub4) s = .next t ∧
    (sub4.toNat = 0 → t.running = false ∧ t.error = false ∧ t.pc = s.pc ∧ t.latch = s.latch) ∧
    (sub4.toNat ≠ 0 → sameRunFlags s t ∧ t.pc.toNat = (s.pc.toNat + 1) % 4096 ∧ t.latch = true) ∧
    t.acc = s.acc ∧ t.stack = s.stack ∧ sameMemory s t ∧ sameDevices s t ∧ sameOutside s t

/-- 42_arithmetic.md R80, R81, R82, R83, R85 (exact intermediate D37, advance D3 are the spec's own): ADD, SUB and MULT put the
exact result on the signed bytes, reduced modulo 256, into ACC, advance by 2 and spend the latch; nothing else changes. -/
def Obligations.AddSubMultWrapModulo256 : Prop :=
  ∀ (op12 : Addr) (s : State),
    (∃ t, exec (.add op12) s = .next t ∧ (t.acc.toNat : Int) = (s.acc.toInt + (operandOf s op12).toInt) % 256 ∧
      t.pc.toNat = (s.pc.toNat + 2) % 4096 ∧ t.latch = false ∧ t.stack = s.stack ∧ sameRunFlags s t ∧ sameMemory s t ∧
      sameDevices s t ∧ sameOutside s t) ∧
    (∃ t, exec (.sub op12) s = .next t ∧ (t.acc.toNat : Int) = (s.acc.toInt - (operandOf s op12).toInt) % 256 ∧
      t.pc.toNat = (s.pc.toNat + 2) % 4096 ∧ t.latch = false ∧ t.stack = s.stack ∧ sameRunFlags s t ∧ sameMemory s t ∧
      sameDevices s t ∧ sameOutside s t) ∧
    (∃ t, exec (.mult op12) s = .next t ∧ (t.acc.toNat : Int) = (s.acc.toInt * (operandOf s op12).toInt) % 256 ∧
      t.pc.toNat = (s.pc.toNat + 2) % 4096 ∧ t.latch = false ∧ t.stack = s.stack ∧ sameRunFlags s t ∧ sameMemory s t ∧
      sameDevices s t ∧ sameOutside s t)

/-- R80: for ADD, SUB and MULT the result byte is the same when both bytes are read as unsigned. -/
def Obligations.AddSubMultSameReadUnsigned : Prop :=
  ∀ (op12 : Addr) (s : State),
    (∃ t, exec (.add op12) s = .next t ∧ t.acc.toNat = (s.acc.toNat + (operandOf s op12).toNat) % 256) ∧
    (∃ t, exec (.sub op12) s = .next t ∧ t.acc.toNat = (s.acc.toNat + 256 - (operandOf s op12).toNat) % 256) ∧
    (∃ t, exec (.mult op12) s = .next t ∧ t.acc.toNat = (s.acc.toNat * (operandOf s op12).toNat) % 256)

/-- R84: with a nonzero divisor DIV puts the signed quotient, reduced modulo 256, into ACC: toward zero when DIV_ROUND is
`trunc`, toward minus infinity when it is `floor`, exact when the divisor divides; it advances by 2 (D3) and spends the latch;
nothing else changes. The statement holds whichever DIV_ROUND is (log 2). -/
def Obligations.DivGivesRoundedQuotient : Prop :=
  ∀ (op12 : Addr) (s : State), (operandOf s op12).toNat ≠ 0 →
    ∃ t, exec (.div op12) s = .next t ∧
      (∃ q : Int, (t.acc.toNat : Int) = q % 256 ∧
        (Config.divRound = .trunc →
          |q * (operandOf s op12).toInt| ≤ |s.acc.toInt| ∧
          |s.acc.toInt| < |q * (operandOf s op12).toInt| + |(operandOf s op12).toInt| ∧
          0 ≤ q * (s.acc.toInt * (operandOf s op12).toInt)) ∧
        (Config.divRound = .floor →
          (0 < (operandOf s op12).toInt → q * (operandOf s op12).toInt ≤ s.acc.toInt ∧
            s.acc.toInt < (q + 1) * (operandOf s op12).toInt) ∧
          ((operandOf s op12).toInt < 0 → s.acc.toInt ≤ q * (operandOf s op12).toInt ∧
            (q + 1) * (operandOf s op12).toInt < s.acc.toInt))) ∧
      t.pc.toNat = (s.pc.toNat + 2) % 4096 ∧ t.latch = false ∧ t.stack = s.stack ∧ sameRunFlags s t ∧ sameMemory s t ∧
      sameDevices s t ∧ sameOutside s t

/-- R84: where the divisor divides exactly, or both operands have the same sign, the quotient does not depend on DIV_ROUND; in
the second case it is the quotient of the magnitudes rounded down. -/
def Obligations.DivFixedWhereRoundingsAgree : Prop :=
  ∀ (op12 : Addr) (s : State), (operandOf s op12).toNat ≠ 0 →
    ∃ t, exec (.div op12) s = .next t ∧
      (∀ q : Int, q * (operandOf s op12).toInt = s.acc.toInt → (t.acc.toNat : Int) = q % 256) ∧
      ((s.acc.toInt < 0 ↔ (operandOf s op12).toInt < 0) →
        t.acc.toNat = s.acc.toInt.natAbs / (operandOf s op12).toInt.natAbs % 256)

/-- R84, 60_exceptions.md R161, R162 (what fault entry leaves alone is the spec's D12): a zero divisor is a fault whatever ACC
holds; the latch is spent, ACC and memory are as before. -/
def Obligations.DivByZeroTakesFault : Prop :=
  ∀ (op12 : Addr) (s : State), (operandOf s op12).toNat = 0 →
    ∃ t, exec (.div op12) s = .next t ∧ haltedWithError t ∧ t.latch = false ∧ t.acc = s.acc ∧ sameMemory s t ∧
      sameDevices s t ∧ sameOutside s t

/-- 43_load_store.md R90 (the advance is the spec's D3): LD loads all 8 bits of the byte at the effective address, advances by 2
and spends the latch; nothing else changes. -/
def Obligations.LDLoadsTheByte : Prop :=
  ∀ (op12 : Addr) (s : State), ∃ t, exec (.ld op12) s = .next t ∧ t.acc = Memory.lookup s.mem (addressOf s op12) ∧
    t.pc.toNat = (s.pc.toNat + 2) % 4096 ∧ t.latch = false ∧ t.stack = s.stack ∧ sameRunFlags s t ∧ sameMemory s t ∧
    sameDevices s t ∧ sameOutside s t

/-- R91 (its meaning is the spec's general knowledge G4, D2; the advance D3): MM stores ACC at the resolved address and leaves
every other byte alone; it advances by 2 and spends the latch; nothing else changes. Canonical memory is the premise. -/
def Obligations.MMStoresTheAccumulator : Prop :=
  ∀ (op12 : Addr) (s : State), Memory.wf s.mem = true →
    ∃ t, exec (.mm op12) s = .next t ∧
      (∀ ea, (resolve op12 s).1 = ea → ea.toNat = addressOf s op12 ∧ memRead t ea = s.acc ∧ sameMemoryExcept ea s t) ∧
      t.acc = s.acc ∧ t.pc.toNat = (s.pc.toNat + 2) % 4096 ∧ t.latch = false ∧ t.stack = s.stack ∧ sameRunFlags s t ∧
      sameDevices s t ∧ sameOutside s t

/-- 44_subroutine_os.md R95: SC pushes its own address, goes to the target Resolve gives and spends the latch; ACC, memory and
all else are as before, whatever the depth of the stack; it is the two bytes 0xAh 0xll. -/
def Obligations.SCPushesAndJumps : Prop :=
  ∀ (op12 : Addr) (s : State),
    encode (.sc op12) = [BitVec.ofNat 8 (0xA0 + op12.toNat / 256), BitVec.ofNat 8 (op12.toNat % 256)] ∧
    ∃ t, exec (.sc op12) s = .next t ∧ t.stack = s.pc :: s.stack ∧ t.pc = (resolve op12 s).1 ∧ t.latch = false ∧
      t.acc = s.acc ∧ sameRunFlags s t ∧ sameMemory s t ∧ sameDevices s t ∧ sameOutside s t

/-- R96: OS 0 with a return address on the stack pops it and resumes at that address plus 2 modulo 4096; the latch is cleared
unused; nothing else changes. -/
def Obligations.OSZeroReturns : Prop :=
  ∀ (s : State) (r : Addr) (rest : List Addr), s.stack = r :: rest →
    ∃ t, exec (.os 0) s = .next t ∧ t.pc.toNat = (r.toNat + 2) % 4096 ∧ t.stack = rest ∧ t.latch = false ∧
      t.acc = s.acc ∧ sameRunFlags s t ∧ sameMemory s t ∧ sameDevices s t ∧ sameOutside s t

/-- R96, 60 R171 (PC unchanged is the spec's D4): OS 0 on an empty stack is a normal halt; the latch is cleared; nothing else
changes. -/
def Obligations.OSZeroOnEmptyStackHalts : Prop :=
  ∀ s : State, s.stack = [] →
    ∃ t, exec (.os 0) s = .next t ∧ t.running = false ∧ t.error = false ∧ t.pc = s.pc ∧ t.stack = [] ∧ t.latch = false ∧
      t.acc = s.acc ∧ sameMemory s t ∧ sameDevices s t ∧ sameOutside s t

/-- R96, 60 R161, R164 (all nonzero values alike D6, what fault entry leaves alone D12 are the spec's own): OS with any nonzero
sub-operand takes the fault, the latch cleared first; ACC, memory and the devices are as before. -/
def Obligations.OSNonzeroTakesFault : Prop :=
  ∀ (sub4 : Nibble) (s : State), sub4.toNat ≠ 0 →
    ∃ t, exec (.os sub4) s = .next t ∧ haltedWithError t ∧ t.latch = false ∧ t.acc = s.acc ∧ sameMemory s t ∧
      sameDevices s t ∧ sameOutside s t

/-- 45_io.md R100, R101 (bits 3 to 1 ignored D5, raw byte D34, whole input given at Run D14 are the spec's own): IO with an even
sub-operand and a token left puts the token at the read position into ACC, moves the position by one and advances by 1; nothing
else changes. -/
def Obligations.IOEvenReadsOneToken : Prop :=
  ∀ (sub4 : Nibble) (s : State) (tok : Byte), sub4.toNat % 2 = 0 → s.input.tokens[s.input.pos]? = some tok →
    ∃ t, exec (.io sub4) s = .next t ∧ t.acc = tok ∧ t.input.tokens = s.input.tokens ∧ t.input.pos = s.input.pos + 1 ∧
      t.output = s.output ∧ t.pc.toNat = (s.pc.toNat + 1) % 4096 ∧ t.latch = s.latch ∧ t.stack = s.stack ∧
      sameRunFlags s t ∧ sameMemory s t ∧ sameOutside s t

/-- R100, 60 R161, R163 (D5, D12 are the spec's own): IO with an even sub-operand and no token left takes the fault; nothing is
consumed, ACC, memory and the latch are as before. -/
def Obligations.IOEvenWithoutTokenTakesFault : Prop :=
  ∀ (sub4 : Nibble) (s : State), sub4.toNat % 2 = 0 → s.input.tokens.length ≤ s.input.pos →
    ∃ t, exec (.io sub4) s = .next t ∧ haltedWithError t ∧ t.latch = s.latch ∧ t.acc = s.acc ∧ sameMemory s t ∧
      sameDevices s t ∧ sameOutside s t

/-- R100, R102 (bits 3 to 1 ignored D5, the byte as it stands D15 are the spec's own): IO with an odd sub-operand appends ACC to
OUT and advances by 1; nothing else changes. -/
def Obligations.IOOddWritesAccumulator : Prop :=
  ∀ (sub4 : Nibble) (s : State), sub4.toNat % 2 = 1 →
    ∃ t, exec (.io sub4) s = .next t ∧ t.output = s.output ++ [s.acc] ∧ t.input = s.input ∧ t.acc = s.acc ∧
      t.pc.toNat = (s.pc.toNat + 1) % 4096 ∧ t.latch = s.latch ∧ t.stack = s.stack ∧ sameRunFlags s t ∧ sameMemory s t ∧
      sameOutside s t

/-- 30_encoding.md R55, 60 R165 (the fault itself is the spec's decision D1): a first byte 0xD0 to 0xFF, as the decoder reads
it, takes the fault; ACC, memory, the latch and the devices are as before. -/
def Obligations.IllegalNibbleTakesFault : Prop :=
  ∀ (s : State) (low : Nibble) (i : Instr), i = .illegalD low ∨ i = .illegalE low ∨ i = .illegalF low →
    ∃ t, exec i s = .next t ∧ haltedWithError t ∧ t.latch = s.latch ∧ t.acc = s.acc ∧ sameMemory s t ∧
      sameDevices s t ∧ sameOutside s t

/-! ### Whole-machine rules -/

/-- 60_exceptions.md R160, R161, R168 (IllegalOpcode is D1, what fault entry leaves alone D12): ERROR is set exactly when the
instruction meets its fault condition, and then the state is that of every fault. -/
def Obligations.ErrorSetExactlyByTheFourFaults : Prop :=
  ∀ (i : Instr) (s t : State), s.error = false → exec i s = .next t →
    (t.error = true ↔ faultRaised i s ≠ none) ∧
    (faultRaised i s ≠ none → haltedWithError t ∧ t.acc = s.acc ∧ sameMemory s t ∧ sameDevices s t)

/-- 70 R187, 60 R171, R175 (PC and stack at a halt: D4, D36): a run ends exactly at a halt or a fault; a halt leaves ERROR clear,
PC at the halting instruction and the stack as it was. -/
def Obligations.RunEndsExactlyByHaltOrFault : Prop :=
  ∀ (i : Instr) (s t : State), s.running = true → exec i s = .next t →
    (t.running = false ↔ haltsNormally i s ∨ faultRaised i s ≠ none) ∧
    (haltsNormally i s → t.error = false ∧ t.pc = s.pc ∧ t.stack = s.stack)

/-- 20_memory.md R38 (a jump not taken is D21): the life of LATCH. Every size-2 instruction and every OS leaves it clear, CN with
a nonzero sub-operand leaves it set, CN 0, IO and the illegal nibbles leave it as it was. -/
def Obligations.LatchLife : Prop :=
  ∀ (i : Instr) (s t : State), exec i s = .next t →
    (i.op12?.isSome = true → t.latch = false) ∧
    (∀ n, i = .os n → t.latch = false) ∧
    (∀ n, i = .cn n → t.latch = (if n.toNat = 0 then s.latch else true)) ∧
    (∀ n, i = .io n ∨ i = .illegalD n ∨ i = .illegalE n ∨ i = .illegalF n → t.latch = s.latch)

/-- 30_encoding.md R58 (advances D3, PC at a halt D4, illegal nibbles D1 are the spec's own): where each instruction leaves PC. -/
def Obligations.ProgramCounterTable : Prop :=
  ∀ (i : Instr) (s t : State), exec i s = .next t →
    t.pc.toNat =
      match i with
      | .jp a => addressOf s a
      | .jz a => if s.acc.toNat = 0 then addressOf s a else (s.pc.toNat + 2) % 4096
      | .jn a => if s.acc.toInt < 0 then addressOf s a else (s.pc.toNat + 2) % 4096
      | .cn n => if n.toNat = 0 then s.pc.toNat else (s.pc.toNat + 1) % 4096
      | .add _ | .sub _ | .mult _ | .ld _ | .mm _ => (s.pc.toNat + 2) % 4096
      | .div a => if (operandOf s a).toNat = 0 then 0 else (s.pc.toNat + 2) % 4096
      | .sc a => addressOf s a
      | .os n =>
        if n.toNat = 0 then
          match s.stack with
          | [] => s.pc.toNat
          | r :: _ => (r.toNat + 2) % 4096
        else 0
      | .io n => if n.toNat % 2 = 0 ∧ s.input.tokens.length ≤ s.input.pos then 0 else (s.pc.toNat + 1) % 4096
      | .illegalD _ | .illegalE _ | .illegalF _ => 0

/-- 10_state.md R10, 43 R91 (MM's meaning is G4): memory is written by MM alone, and ACC only by ADD, SUB, MULT, DIV, LD and the
read form of IO. -/
def Obligations.WritersOfMemoryAndAccumulator : Prop :=
  ∀ (i : Instr) (s t : State), exec i s = .next t →
    ((∀ a, i ≠ .mm a) → sameMemory s t) ∧
    ((∀ a, i ≠ .add a ∧ i ≠ .sub a ∧ i ≠ .mult a ∧ i ≠ .div a ∧ i ≠ .ld a) → (∀ n, i = .io n → n.toNat % 2 = 1) →
      t.acc = s.acc)

/-- 10_state.md R13: only SC (push of its own address), OS 0 (pop) and fault entry (clear) change the call stack. -/
def Obligations.StackChangedOnlyByCallReturnFault : Prop :=
  ∀ (i : Instr) (s t : State), exec i s = .next t →
    t.stack = s.stack ∨ (∃ a, i = .sc a ∧ t.stack = s.pc :: s.stack) ∨
    (i = .os 0 ∧ ∃ r, s.stack = r :: t.stack) ∨ (faultRaised i s ≠ none ∧ t.stack = [])

/-- 10_state.md R17, 45 R101, R102, 20 R47: an instruction moves at most one token, and only IO does: the read form takes the
token at the read position, the write form appends ACC; the tokens of IN never change. -/
def Obligations.DevicesChangedOnlyByIO : Prop :=
  ∀ (i : Instr) (s t : State), exec i s = .next t →
    t.input.tokens = s.input.tokens ∧
    (t.input.pos = s.input.pos ∨
      (∃ n, i = .io n ∧ n.toNat % 2 = 0 ∧ s.input.tokens[s.input.pos]? = some t.acc ∧ t.input.pos = s.input.pos + 1)) ∧
    (t.output = s.output ∨ (∃ n, i = .io n ∧ n.toNat % 2 = 1 ∧ t.output = s.output ++ [s.acc]))

/-- 10_state.md R10, R15: no instruction reads ERROR or OUT: with another value there, everything else comes out the same. -/
def Obligations.ErrorAndOutputNeverRead : Prop :=
  ∀ (i : Instr) (s t : State) (e : Bool) (o : List Byte), exec i s = .next t →
    ∃ t', exec i ((s.setError e).setOutput o) = .next t' ∧ (t'.setError t.error).setOutput t.output = t

/-- 44_subroutine_os.md R97: after an SC, in any state that has the stack the SC left, OS 0 resumes at the call's address plus 2
with the stack as it was before the call; ACC and memory pass unchanged. -/
def Obligations.ReturnResumesAfterTheCall : Prop :=
  ∀ (op12 : Addr) (s t u : State), exec (.sc op12) s = .next t → u.stack = t.stack →
    ∃ v, exec (.os 0) u = .next v ∧ v.pc.toNat = (s.pc.toNat + 2) % 4096 ∧ v.stack = s.stack ∧ v.acc = u.acc ∧
      sameMemory u v

/-- 20_memory.md R42 (MM's meaning is G4): MM followed by LD of the same cell returns the stored byte. -/
def Obligations.StoreThenLoadReturnsTheByte : Prop :=
  ∀ (op12 : Addr) (s t : State), Memory.wf s.mem = true → exec (.mm op12) s = .next t →
    ∃ u, exec (.ld (resolve op12 s).1) t = .next u ∧ u.acc = s.acc

/-- 20_memory.md R43 (the spec's own derivation; MM's meaning is G4, log 14): the byte an MM stores is what every later fetch
reads, as the instruction's first byte and as its second: in every running state whose memory reads as MM left it, a step runs
the instruction the bytes with the stored one among them decode to. The state after MM is such a state, with PC at the very next
instruction (the advance: D3). -/
def Obligations.StoreIsSeenByTheNextFetch : Prop :=
  ∀ (op12 : Addr) (s t : State), Memory.wf s.mem = true → s.running = true → exec (.mm op12) s = .next t →
    t.running = true ∧ t.pc = s.pc + 2 ∧
    ∀ (u : State) (i : Instr) (rest : List Byte), u.running = true → sameMemory t u →
      ((resolve op12 s).1 = u.pc → decode [s.acc, memRead s (u.pc + 1)] = .ok i rest → step u = exec i u) ∧
      ((resolve op12 s).1 = u.pc + 1 → decode [memRead s u.pc, s.acc] = .ok i rest → step u = exec i u)

/-- 70 R190, 40 R70 (JP's meaning is G1): a direct jump to its own address never ends, never faults and changes nothing, for
however many steps. -/
def Obligations.JumpToItselfNeverEnds : Prop :=
  ∀ s : State, s.running = true → s.latch = false → fetchInstr s = .jp s.pc → ∀ n, core.run n s = .next s

/-- 70 R190, 10 R13 (unbounded stack D22): a direct call to its own address pushes one entry a step for ever and never faults. -/
def Obligations.CallToItselfGrowsStackForEver : Prop :=
  ∀ s : State, s.running = true → s.error = false → s.latch = false → fetchInstr s = .sc s.pc →
    ∀ n, FaultFree n s ∧ ∃ t, core.run n s = .next t ∧ t.running = true ∧ t.pc = s.pc ∧
      t.stack = List.replicate n s.pc ++ s.stack

/-- The canonical form (log 12): two canonical memories that read alike at every address are the same data. -/
def Obligations.CanonicalMemoriesAreEqualData : Prop :=
  ∀ m m' : Memory, Memory.wf m = true → Memory.wf m' = true →
    (∀ a : Addr, Memory.lookup m a.toNat = Memory.lookup m' a.toNat) → m = m'

/-! ### Host commands -/

/-- 70 R180, 10 R21 (all but the memory fill are the spec's D9, D10, D14; the argument and what lies outside the engine: log 20):
PowerOn leaves the Idle state, every cell at 0xFF and ACC at ACC_RESET, here an arbitrary byte. That the command leaves the list
and no reply is given is the model's (log 5). -/
def Obligations.PowerOnGivesTheIdleState : Prop :=
  ∀ (s : State) (a : Byte) (rest : List HostCommand), s.running = false → s.sru.phase = .idle →
    s.host = .powerOn a :: rest →
    ∃ t, step s = .next t ∧ (∀ x : Addr, (memRead t x).toNat = 255) ∧ t.acc = a ∧ t.pc.toNat = 0 ∧ t.stack = [] ∧
      t.latch = false ∧ t.running = false ∧ t.error = false ∧ t.input = ⟨[], 0⟩ ∧ t.output = [] ∧
      t.host = rest ∧ t.replies = s.replies ∧ t.sru = s.sru

/-- 70 R181, R182 (what Run leaves alone is the spec's D11, the streams D14): Run masks the start address, clears ERROR, sets
RUNNING, installs the streams, and writes neither ACC, STACK, LATCH nor memory. That the command leaves the list and no reply is
given is the model's (log 5). -/
def Obligations.RunStartsTheEngine : Prop :=
  ∀ (s : State) (start : Nat) (input : List Byte) (rest : List HostCommand), s.running = false → s.sru.phase = .idle →
    s.host = .run start input :: rest →
    ∃ t, step s = .next t ∧ t.pc.toNat = start % 4096 ∧ t.error = false ∧ t.running = true ∧ t.input.tokens = input ∧
      t.input.pos = 0 ∧ t.output = [] ∧ t.acc = s.acc ∧ t.stack = s.stack ∧ t.latch = s.latch ∧ sameMemory s t ∧
      t.host = rest ∧ t.replies = s.replies ∧ t.sru = s.sru

/-- 70 R184, R185 (the procedure is the spec's D16, the checksum policy D17): a stream of the right length is placed byte by byte
from its address modulo 4096, wrapping past 0xFFF; every other cell and register is as before; the reply says whether the
checksum matched, and the payload is loaded either way. That the command leaves the list and the reply joins its own is the
model's (log 5). -/
def Obligations.LoadPlacesThePayload : Prop :=
  ∀ (s : State) (hi lo len cc : Byte) (payload : List Byte) (rest : List HostCommand), s.running = false →
    s.sru.phase = .idle → Memory.wf s.mem = true → payload.length = len.toNat →
    s.host = .load (hi :: lo :: len :: payload ++ [cc]) :: rest →
    ∃ t, step s = .next t ∧
      (∀ k b, payload[k]? = some b → memRead t (BitVec.ofNat 12 (256 * hi.toNat + lo.toNat + k)) = b) ∧
      (∀ a : Addr, (∀ k < payload.length, a ≠ BitVec.ofNat 12 (256 * hi.toNat + lo.toNat + k)) → memRead t a = memRead s a) ∧
      t.replies = s.replies ++
        [.loaded (decide (cc.toNat = (hi.toNat + lo.toNat + len.toNat + (payload.map BitVec.toNat).sum) % 256))] ∧
      t.acc = s.acc ∧ t.pc = s.pc ∧ t.stack = s.stack ∧ t.latch = s.latch ∧ sameRunFlags s t ∧ sameDevices s t ∧
      t.host = rest ∧ t.sru = s.sru

/-- 70 R184 (D16; a stream without a length byte: log 11): a stream whose length is not LL + 4 is refused and nothing is
written. That the command leaves the list and the refusal is a reply in its own is the model's (log 5). -/
def Obligations.LoadRefusesMalformedStream : Prop :=
  ∀ (s : State) (obj : List Byte) (rest : List HostCommand), s.running = false → s.sru.phase = .idle →
    s.host = .load obj :: rest → (∀ len, obj[2]? = some len → obj.length ≠ len.toNat + 4) →
    ∃ t, step s = .next t ∧ t.toEngine = s.toEngine ∧ t.replies = s.replies ++ [.loadRefused] ∧ t.host = rest ∧
      t.sru = s.sru

/-- 70 R183 (D16), 20_memory.md R38: HostPoke writes the low byte of its value at its address modulo 4096 and no other cell, and
leaves ACC, PC, STACK, LATCH, RUNNING, ERROR, IN, OUT and the SRU as they are; HostPeek replies the byte at its address modulo
4096, and observation the engine's whole state; both change nothing of the engine and the SRU. That a command leaves the list and
a reply joins its own is the model's (log 5). -/
def Obligations.PokePeekAndObserve : Prop :=
  ∀ (s : State) (a v : Nat) (rest : List HostCommand), s.running = false → s.sru.phase = .idle →
    (Memory.wf s.mem = true → s.host = .poke a v :: rest → ∃ t, step s = .next t ∧
      (memRead t (BitVec.ofNat 12 (a % 4096))).toNat = v % 256 ∧ sameMemoryExcept (BitVec.ofNat 12 (a % 4096)) s t ∧
      t.acc = s.acc ∧ t.pc = s.pc ∧ t.stack = s.stack ∧ t.latch = s.latch ∧ sameRunFlags s t ∧ sameDevices s t ∧
      t.sru = s.sru ∧ t.host = rest ∧ t.replies = s.replies) ∧
    (s.host = .peek a :: rest → ∃ t, step s = .next t ∧ t.toEngine = s.toEngine ∧ t.sru = s.sru ∧ t.host = rest ∧
      t.replies = s.replies ++ [.peeked (memRead s (BitVec.ofNat 12 (a % 4096)))]) ∧
    (s.host = .observe :: rest → ∃ t, step s = .next t ∧ t.toEngine = s.toEngine ∧ t.sru = s.sru ∧ t.host = rest ∧
      t.replies = s.replies ++ [.observed s.toEngine])

/-! ### The SRU -/

/-- 46 R114, R115, R117 to R119, R125, R126 (blank lines D24, Constants D27, missing and extra tokens D30 are the spec's own): what
one line of pass 2 after the header does. An instruction line emits its mnemonic's bytes with the value of its operand token,
which is its label when it is one, else its hex value modulo 4096, for every mnemonic alike, and a token that is neither is
UnresolvedOperand; a Constant emits exactly one byte, its third token's value, and without a hex value up to 0xFF it is
BadConstant; blank lines, code labels, Origins and the End emit nothing; tokens past a line's form are ExtraToken. Emitting
touches OBJ and CHK alone. -/
def Obligations.OperandMeansLabelFirst : Prop :=
  ∀ (r : Sru) (text : Line),
    (tokens text = [] → pass2Line r text = .next r) ∧
    (∀ name, tokens text = [name] → isLabelLine text = true → pass2Line r text = .next r) ∧
    (∀ (name : Token) (ts : List Token), tokens text = name :: ['K'] :: ts → isLabelLine text = true →
      (ts = [] → pass2Line r text = .error .badConstant r.line) ∧
      (∀ t3 extra, ts = t3 :: extra →
        (hexValue t3 = none → pass2Line r text = .error .badConstant r.line) ∧
        (∀ v, hexValue t3 = some v →
          (255 < v → pass2Line r text = .error .badConstant r.line) ∧
          (v ≤ 255 → extra ≠ [] → pass2Line r text = .error .extraToken r.line) ∧
          (v ≤ 255 → extra = [] → ∃ r' b, pass2Line r text = .next r' ∧ emits [b] r r' ∧ b.toNat = v)))) ∧
    (∀ ts : List Token, tokens text = ['#'] :: ts → isLabelLine text = false →
      pass2Line r text = if ts = [] then .finish r else .error .extraToken r.line) ∧
    (∀ ts : List Token, tokens text = ['@'] :: ts → isLabelLine text = false →
      pass2Line r text = if ts.length ≤ 1 then .next r else .error .extraToken r.line) ∧
    (∀ row ∈ catalog, ∀ ts : List Token, tokens text = row.name :: ts → isLabelLine text = false →
      (ts = [] → pass2Line r text = .error .unresolvedOperand r.line) ∧
      (1 < ts.length → pass2Line r text = .error .extraToken r.line) ∧
      (∀ tok, ts = [tok] →
        (∀ a, symLookup r.symtab tok = some a → resolveToken r.symtab tok = some a ∧
          ∃ r', pass2Line r text = .next r' ∧ emits (encodeRow row a) r r') ∧
        (∀ v, symLookup r.symtab tok = none → hexValue tok = some v →
          ∃ a r', a.toNat = v % 4096 ∧ resolveToken r.symtab tok = some a ∧ pass2Line r text = .next r' ∧
            emits (encodeRow row a) r r') ∧
        (symLookup r.symtab tok = none → hexValue tok = none →
          pass2Line r text = .error .unresolvedOperand r.line)))

/-- 46 R122, R125, R127, R128 (the reduction modulo 4096 is the spec's D28): what the SRU puts out is the start address, line 1's
Origin operand modulo 4096, high byte first, a length byte, that many payload bytes (the two passes' agreement is the spec's own
derivation in R125) and a last byte equal to the plain sum of all before it modulo 256; the whole then sums to twice that byte,
which is 0 only for 0x00 and 0x80. -/
def Obligations.ObjectStreamLayoutAndChecksum : Prop :=
  ∀ (source : List Line) (obj : List Byte), assemble source = .object obj →
    ∃ (hi lo len cc : Byte) (payload : List Byte), obj = hi :: lo :: len :: payload ++ [cc] ∧ hi.toNat < 16 ∧
      (∃ text rest t2 v, source = text :: rest ∧ isLabelLine text = false ∧ tokens text = [['@'], t2] ∧
        hexValue t2 = some v ∧ 256 * hi.toNat + lo.toNat = v % 4096) ∧
      payload.length = len.toNat ∧
      cc.toNat = ((hi :: lo :: len :: payload).map BitVec.toNat).sum % 256 ∧
      (obj.map BitVec.toNat).sum % 256 = 2 * cc.toNat % 256 ∧
      ((obj.map BitVec.toNat).sum % 256 = 0 ↔ cc.toNat = 0 ∨ cc.toNat = 128)

/-- 46 R125, R128, R131 with 70 R184: whatever source the SRU accepts, HostLoad accepts the object stream, into any memory, and
its checksum matches: the two passes count the same bytes. -/
def Obligations.EveryAssembledStreamLoads : Prop :=
  ∀ (source : List Line) (obj : List Byte) (m : Memory), assemble source = .object obj →
    ∃ m', loadObject obj m = some (m', true)

/-- 46 R110, 10 R20 (the line-by-line agent is the model's, log 6, 7; the pending commands and the replies too, log 5): handing
over a source resets every SRU register and touches nothing else; from there the SRU finishes within 2n + 3 steps for n lines,
hands the host exactly the result of the pure function, ends with every register reset, and has touched neither the engine nor
the pending commands; so the command as a whole is done within 2n + 4 steps. -/
def Obligations.SruAgentComputesTheFunction : Prop :=
  ∀ (s : State) (source : List Line), s.running = false →
    (∀ rest, s.sru.phase = .idle → s.host = .assemble source :: rest →
      ∃ u, step s = .next u ∧ u.sru = Sru.start source ∧ u.sru.symtab = [] ∧ u.sru.cursor.toNat = 0 ∧ u.sru.count = 0 ∧
        u.sru.chk.toNat = 0 ∧ u.sru.line = 0 ∧ u.sru.obj = [] ∧ u.toEngine = s.toEngine ∧ u.host = rest ∧
        u.replies = s.replies) ∧
    (s.sru = Sru.start source →
      ∃ k ≤ 2 * source.length + 3, ∃ t, core.run k s = .next t ∧ t.sru = Sru.idle ∧
        t.replies = s.replies ++ [.assembled (assemble source)] ∧ t.toEngine = s.toEngine ∧ t.host = s.host) ∧
    (∀ rest, s.sru.phase = .idle → s.host = .assemble source :: rest →
      ∃ k ≤ 2 * source.length + 4, ∃ t, core.run k s = .next t ∧ t.sru = Sru.idle ∧
        t.replies = s.replies ++ [.assembled (assemble source)] ∧ t.toEngine = s.toEngine ∧ t.host = rest)

/-- 46 R122: when pass 1 accepts every line and line 1 is not an Origin statement, the result is MissingOrigin at line 1; an
Origin statement on line 1 without a hex operand is BadOrigin at line 1, and one written flush-left is ReservedName at line 1. -/
def Obligations.FirstLineMustBeOrigin : Prop :=
  ∀ (text : Line) (rest : List Line),
    (∀ r, pass1 (text :: rest) (Sru.start (text :: rest)) = .finish r →
      isLabelLine text = true ∨ (tokens text).head? ≠ some tokOrigin → assemble (text :: rest) = .error .missingOrigin 1) ∧
    (isLabelLine text = false → (tokens text).head? = some tokOrigin →
      (∀ t2, (tokens text)[1]? = some t2 → hexValue t2 = none) → assemble (text :: rest) = .error .badOrigin 1) ∧
    (isLabelLine text = true → (tokens text).head? = some tokOrigin → assemble (text :: rest) = .error .reservedName 1)

/-- 46 R113, R123: every label line that pass 1 takes up with a reserved name is ReservedName at that line; so a source in which
pass 1 accepts the lines before such a line, no End line among them, is refused with the number of that line, whatever
follows. -/
def Obligations.ReservedFirstLabelRefused : Prop :=
  ∀ (text : Line) (name : Token), isLabelLine text = true → (tokens text).head? = some name →
    (∃ row ∈ catalog, name = row.name) ∨ name = ['@'] ∨ name = ['#'] ∨ name = ['K'] →
    (∀ r : Sru, pass1Line r text = .error .reservedName r.line) ∧
    (∀ (before rest : List Line) (r : Sru), pass1 before (Sru.start (before ++ text :: rest)) = .finish r →
      (∀ l ∈ before, isLabelLine l = true ∨ (tokens l).head? ≠ some ['#']) →
      assemble (before ++ text :: rest) = .error .reservedName (before.length + 1))

/-- 45 R103 (upper case out, either case in: the spec's D15; the delimiter and the last token's: log 3): parsing the text form of
any byte stream gives the stream back, for every delimiter. -/
def Obligations.TokenTextRoundTrip : Prop :=
  ∀ (delim : List Char) (bs : List Byte), parseTokens delim (renderTokens delim bs) = some bs

/-- 46 R112 to R119, R123, R124 (blank lines D24, a second declaration D26, the reduction modulo 4096 D28 are the spec's own):
what one line of pass 1 does to SYMTAB, CURSOR and COUNT. A new, unreserved label is bound to CURSOR and every other name stays
bound as it was; a Constant moves CURSOR and COUNT by 1, an instruction line by its catalog size, an Origin sets CURSOR; a blank
line changes nothing, an End line ends the pass; OBJ, CHK, LINE and the text are never touched. Every other line is the error the
rules name. -/
def Obligations.Pass1BindsLabelsAndMovesCursor : Prop :=
  ∀ (r : Sru) (text : Line),
    (tokens text = [] → pass1Line r text = .next r) ∧
    (∀ (t1 : Token) (ts : List Token), tokens text = t1 :: ts → isLabelLine text = true →
      (∀ row ∈ catalog, t1 ≠ row.name) → t1 ≠ ['@'] → t1 ≠ ['#'] → t1 ≠ ['K'] →
      (∀ a, symLookup r.symtab t1 = some a → pass1Line r text = .error .duplicateLabel r.line) ∧
      (symLookup r.symtab t1 = none →
        (ts = [] → ∃ r', pass1Line r text = .next r' ∧ bindsOnly t1 r.cursor r r' ∧ r'.cursor = r.cursor ∧
          r'.count = r.count ∧ sameEmission r r') ∧
        (ts.head? = some ['K'] → ∃ r', pass1Line r text = .next r' ∧ bindsOnly t1 r.cursor r r' ∧
          r'.cursor.toNat = (r.cursor.toNat + 1) % 4096 ∧ r'.count = r.count + 1 ∧ sameEmission r r') ∧
        (∀ t2, ts.head? = some t2 → t2 ≠ ['K'] → pass1Line r text = .error .badLabelDirective r.line))) ∧
    (∀ (t1 : Token) (ts : List Token), tokens text = t1 :: ts → isLabelLine text = false →
      (t1 = ['@'] → ∀ t2 v, ts.head? = some t2 → hexValue t2 = some v → ∃ r', pass1Line r text = .next r' ∧
        r'.cursor.toNat = v % 4096 ∧ r'.symtab = r.symtab ∧ r'.count = r.count ∧ sameEmission r r') ∧
      (t1 = ['@'] → (∀ t2, ts.head? = some t2 → hexValue t2 = none) → pass1Line r text = .error .badOrigin r.line) ∧
      (t1 = ['#'] → pass1Line r text = .finish r) ∧
      (∀ row ∈ catalog, t1 = row.name → ∃ r', pass1Line r text = .next r' ∧
        r'.cursor.toNat = (r.cursor.toNat + row.size) % 4096 ∧ r'.count = r.count + row.size ∧ r'.symtab = r.symtab ∧
        sameEmission r r') ∧
      (t1 ≠ ['@'] → t1 ≠ ['#'] → (∀ row ∈ catalog, t1 ≠ row.name) → pass1Line r text = .error .unknownMnemonic r.line))
end

