-- ==== Sys2Proof/Laws/State.lean ====
section
/-! SUPPORT. One lemma per field per update of the state, all true by rfl, so that no proof unfolds a record update. -/
namespace Sys2Proof.Machine

@[simp] theorem State.setAcc_acc (s : State) (v : Byte) : (s.setAcc v).acc = v := rfl
@[simp] theorem State.setAcc_pc (s : State) (v : Byte) : (s.setAcc v).pc = s.pc := rfl
@[simp] theorem State.setAcc_stack (s : State) (v : Byte) : (s.setAcc v).stack = s.stack := rfl
@[simp] theorem State.setAcc_latch (s : State) (v : Byte) : (s.setAcc v).latch = s.latch := rfl
@[simp] theorem State.setAcc_running (s : State) (v : Byte) : (s.setAcc v).running = s.running := rfl
@[simp] theorem State.setAcc_error (s : State) (v : Byte) : (s.setAcc v).error = s.error := rfl
@[simp] theorem State.setAcc_mem (s : State) (v : Byte) : (s.setAcc v).mem = s.mem := rfl
@[simp] theorem State.setAcc_input (s : State) (v : Byte) : (s.setAcc v).input = s.input := rfl
@[simp] theorem State.setAcc_output (s : State) (v : Byte) : (s.setAcc v).output = s.output := rfl
@[simp] theorem State.setAcc_sru (s : State) (v : Byte) : (s.setAcc v).sru = s.sru := rfl
@[simp] theorem State.setAcc_host (s : State) (v : Byte) : (s.setAcc v).host = s.host := rfl
@[simp] theorem State.setAcc_replies (s : State) (v : Byte) : (s.setAcc v).replies = s.replies := rfl

@[simp] theorem State.setPc_acc (s : State) (v : Addr) : (s.setPc v).acc = s.acc := rfl
@[simp] theorem State.setPc_pc (s : State) (v : Addr) : (s.setPc v).pc = v := rfl
@[simp] theorem State.setPc_stack (s : State) (v : Addr) : (s.setPc v).stack = s.stack := rfl
@[simp] theorem State.setPc_latch (s : State) (v : Addr) : (s.setPc v).latch = s.latch := rfl
@[simp] theorem State.setPc_running (s : State) (v : Addr) : (s.setPc v).running = s.running := rfl
@[simp] theorem State.setPc_error (s : State) (v : Addr) : (s.setPc v).error = s.error := rfl
@[simp] theorem State.setPc_mem (s : State) (v : Addr) : (s.setPc v).mem = s.mem := rfl
@[simp] theorem State.setPc_input (s : State) (v : Addr) : (s.setPc v).input = s.input := rfl
@[simp] theorem State.setPc_output (s : State) (v : Addr) : (s.setPc v).output = s.output := rfl
@[simp] theorem State.setPc_sru (s : State) (v : Addr) : (s.setPc v).sru = s.sru := rfl
@[simp] theorem State.setPc_host (s : State) (v : Addr) : (s.setPc v).host = s.host := rfl
@[simp] theorem State.setPc_replies (s : State) (v : Addr) : (s.setPc v).replies = s.replies := rfl

@[simp] theorem State.setStack_acc (s : State) (v : List Addr) : (s.setStack v).acc = s.acc := rfl
@[simp] theorem State.setStack_pc (s : State) (v : List Addr) : (s.setStack v).pc = s.pc := rfl
@[simp] theorem State.setStack_stack (s : State) (v : List Addr) : (s.setStack v).stack = v := rfl
@[simp] theorem State.setStack_latch (s : State) (v : List Addr) : (s.setStack v).latch = s.latch := rfl
@[simp] theorem State.setStack_running (s : State) (v : List Addr) : (s.setStack v).running = s.running := rfl
@[simp] theorem State.setStack_error (s : State) (v : List Addr) : (s.setStack v).error = s.error := rfl
@[simp] theorem State.setStack_mem (s : State) (v : List Addr) : (s.setStack v).mem = s.mem := rfl
@[simp] theorem State.setStack_input (s : State) (v : List Addr) : (s.setStack v).input = s.input := rfl
@[simp] theorem State.setStack_output (s : State) (v : List Addr) : (s.setStack v).output = s.output := rfl
@[simp] theorem State.setStack_sru (s : State) (v : List Addr) : (s.setStack v).sru = s.sru := rfl
@[simp] theorem State.setStack_host (s : State) (v : List Addr) : (s.setStack v).host = s.host := rfl
@[simp] theorem State.setStack_replies (s : State) (v : List Addr) : (s.setStack v).replies = s.replies := rfl

@[simp] theorem State.setLatch_acc (s : State) (v : Bool) : (s.setLatch v).acc = s.acc := rfl
@[simp] theorem State.setLatch_pc (s : State) (v : Bool) : (s.setLatch v).pc = s.pc := rfl
@[simp] theorem State.setLatch_stack (s : State) (v : Bool) : (s.setLatch v).stack = s.stack := rfl
@[simp] theorem State.setLatch_latch (s : State) (v : Bool) : (s.setLatch v).latch = v := rfl
@[simp] theorem State.setLatch_running (s : State) (v : Bool) : (s.setLatch v).running = s.running := rfl
@[simp] theorem State.setLatch_error (s : State) (v : Bool) : (s.setLatch v).error = s.error := rfl
@[simp] theorem State.setLatch_mem (s : State) (v : Bool) : (s.setLatch v).mem = s.mem := rfl
@[simp] theorem State.setLatch_input (s : State) (v : Bool) : (s.setLatch v).input = s.input := rfl
@[simp] theorem State.setLatch_output (s : State) (v : Bool) : (s.setLatch v).output = s.output := rfl
@[simp] theorem State.setLatch_sru (s : State) (v : Bool) : (s.setLatch v).sru = s.sru := rfl
@[simp] theorem State.setLatch_host (s : State) (v : Bool) : (s.setLatch v).host = s.host := rfl
@[simp] theorem State.setLatch_replies (s : State) (v : Bool) : (s.setLatch v).replies = s.replies := rfl

@[simp] theorem State.setRunning_acc (s : State) (v : Bool) : (s.setRunning v).acc = s.acc := rfl
@[simp] theorem State.setRunning_pc (s : State) (v : Bool) : (s.setRunning v).pc = s.pc := rfl
@[simp] theorem State.setRunning_stack (s : State) (v : Bool) : (s.setRunning v).stack = s.stack := rfl
@[simp] theorem State.setRunning_latch (s : State) (v : Bool) : (s.setRunning v).latch = s.latch := rfl
@[simp] theorem State.setRunning_running (s : State) (v : Bool) : (s.setRunning v).running = v := rfl
@[simp] theorem State.setRunning_error (s : State) (v : Bool) : (s.setRunning v).error = s.error := rfl
@[simp] theorem State.setRunning_mem (s : State) (v : Bool) : (s.setRunning v).mem = s.mem := rfl
@[simp] theorem State.setRunning_input (s : State) (v : Bool) : (s.setRunning v).input = s.input := rfl
@[simp] theorem State.setRunning_output (s : State) (v : Bool) : (s.setRunning v).output = s.output := rfl
@[simp] theorem State.setRunning_sru (s : State) (v : Bool) : (s.setRunning v).sru = s.sru := rfl
@[simp] theorem State.setRunning_host (s : State) (v : Bool) : (s.setRunning v).host = s.host := rfl
@[simp] theorem State.setRunning_replies (s : State) (v : Bool) : (s.setRunning v).replies = s.replies := rfl

@[simp] theorem State.setError_acc (s : State) (v : Bool) : (s.setError v).acc = s.acc := rfl
@[simp] theorem State.setError_pc (s : State) (v : Bool) : (s.setError v).pc = s.pc := rfl
@[simp] theorem State.setError_stack (s : State) (v : Bool) : (s.setError v).stack = s.stack := rfl
@[simp] theorem State.setError_latch (s : State) (v : Bool) : (s.setError v).latch = s.latch := rfl
@[simp] theorem State.setError_running (s : State) (v : Bool) : (s.setError v).running = s.running := rfl
@[simp] theorem State.setError_error (s : State) (v : Bool) : (s.setError v).error = v := rfl
@[simp] theorem State.setError_mem (s : State) (v : Bool) : (s.setError v).mem = s.mem := rfl
@[simp] theorem State.setError_input (s : State) (v : Bool) : (s.setError v).input = s.input := rfl
@[simp] theorem State.setError_output (s : State) (v : Bool) : (s.setError v).output = s.output := rfl
@[simp] theorem State.setError_sru (s : State) (v : Bool) : (s.setError v).sru = s.sru := rfl
@[simp] theorem State.setError_host (s : State) (v : Bool) : (s.setError v).host = s.host := rfl
@[simp] theorem State.setError_replies (s : State) (v : Bool) : (s.setError v).replies = s.replies := rfl

@[simp] theorem State.setMem_acc (s : State) (v : Memory) : (s.setMem v).acc = s.acc := rfl
@[simp] theorem State.setMem_pc (s : State) (v : Memory) : (s.setMem v).pc = s.pc := rfl
@[simp] theorem State.setMem_stack (s : State) (v : Memory) : (s.setMem v).stack = s.stack := rfl
@[simp] theorem State.setMem_latch (s : State) (v : Memory) : (s.setMem v).latch = s.latch := rfl
@[simp] theorem State.setMem_running (s : State) (v : Memory) : (s.setMem v).running = s.running := rfl
@[simp] theorem State.setMem_error (s : State) (v : Memory) : (s.setMem v).error = s.error := rfl
@[simp] theorem State.setMem_mem (s : State) (v : Memory) : (s.setMem v).mem = v := rfl
@[simp] theorem State.setMem_input (s : State) (v : Memory) : (s.setMem v).input = s.input := rfl
@[simp] theorem State.setMem_output (s : State) (v : Memory) : (s.setMem v).output = s.output := rfl
@[simp] theorem State.setMem_sru (s : State) (v : Memory) : (s.setMem v).sru = s.sru := rfl
@[simp] theorem State.setMem_host (s : State) (v : Memory) : (s.setMem v).host = s.host := rfl
@[simp] theorem State.setMem_replies (s : State) (v : Memory) : (s.setMem v).replies = s.replies := rfl

@[simp] theorem State.setInput_acc (s : State) (v : TokenStream) : (s.setInput v).acc = s.acc := rfl
@[simp] theorem State.setInput_pc (s : State) (v : TokenStream) : (s.setInput v).pc = s.pc := rfl
@[simp] theorem State.setInput_stack (s : State) (v : TokenStream) : (s.setInput v).stack = s.stack := rfl
@[simp] theorem State.setInput_latch (s : State) (v : TokenStream) : (s.setInput v).latch = s.latch := rfl
@[simp] theorem State.setInput_running (s : State) (v : TokenStream) : (s.setInput v).running = s.running := rfl
@[simp] theorem State.setInput_error (s : State) (v : TokenStream) : (s.setInput v).error = s.error := rfl
@[simp] theorem State.setInput_mem (s : State) (v : TokenStream) : (s.setInput v).mem = s.mem := rfl
@[simp] theorem State.setInput_input (s : State) (v : TokenStream) : (s.setInput v).input = v := rfl
@[simp] theorem State.setInput_output (s : State) (v : TokenStream) : (s.setInput v).output = s.output := rfl
@[simp] theorem State.setInput_sru (s : State) (v : TokenStream) : (s.setInput v).sru = s.sru := rfl
@[simp] theorem State.setInput_host (s : State) (v : TokenStream) : (s.setInput v).host = s.host := rfl
@[simp] theorem State.setInput_replies (s : State) (v : TokenStream) : (s.setInput v).replies = s.replies := rfl

@[simp] theorem State.setOutput_acc (s : State) (v : List Byte) : (s.setOutput v).acc = s.acc := rfl
@[simp] theorem State.setOutput_pc (s : State) (v : List Byte) : (s.setOutput v).pc = s.pc := rfl
@[simp] theorem State.setOutput_stack (s : State) (v : List Byte) : (s.setOutput v).stack = s.stack := rfl
@[simp] theorem State.setOutput_latch (s : State) (v : List Byte) : (s.setOutput v).latch = s.latch := rfl
@[simp] theorem State.setOutput_running (s : State) (v : List Byte) : (s.setOutput v).running = s.running := rfl
@[simp] theorem State.setOutput_error (s : State) (v : List Byte) : (s.setOutput v).error = s.error := rfl
@[simp] theorem State.setOutput_mem (s : State) (v : List Byte) : (s.setOutput v).mem = s.mem := rfl
@[simp] theorem State.setOutput_input (s : State) (v : List Byte) : (s.setOutput v).input = s.input := rfl
@[simp] theorem State.setOutput_output (s : State) (v : List Byte) : (s.setOutput v).output = v := rfl
@[simp] theorem State.setOutput_sru (s : State) (v : List Byte) : (s.setOutput v).sru = s.sru := rfl
@[simp] theorem State.setOutput_host (s : State) (v : List Byte) : (s.setOutput v).host = s.host := rfl
@[simp] theorem State.setOutput_replies (s : State) (v : List Byte) : (s.setOutput v).replies = s.replies := rfl

@[simp] theorem State.setSru_acc (s : State) (v : Sru) : (s.setSru v).acc = s.acc := rfl
@[simp] theorem State.setSru_pc (s : State) (v : Sru) : (s.setSru v).pc = s.pc := rfl
@[simp] theorem State.setSru_stack (s : State) (v : Sru) : (s.setSru v).stack = s.stack := rfl
@[simp] theorem State.setSru_latch (s : State) (v : Sru) : (s.setSru v).latch = s.latch := rfl
@[simp] theorem State.setSru_running (s : State) (v : Sru) : (s.setSru v).running = s.running := rfl
@[simp] theorem State.setSru_error (s : State) (v : Sru) : (s.setSru v).error = s.error := rfl
@[simp] theorem State.setSru_mem (s : State) (v : Sru) : (s.setSru v).mem = s.mem := rfl
@[simp] theorem State.setSru_input (s : State) (v : Sru) : (s.setSru v).input = s.input := rfl
@[simp] theorem State.setSru_output (s : State) (v : Sru) : (s.setSru v).output = s.output := rfl
@[simp] theorem State.setSru_sru (s : State) (v : Sru) : (s.setSru v).sru = v := rfl
@[simp] theorem State.setSru_host (s : State) (v : Sru) : (s.setSru v).host = s.host := rfl
@[simp] theorem State.setSru_replies (s : State) (v : Sru) : (s.setSru v).replies = s.replies := rfl
@[simp] theorem State.setSru_toEngine (s : State) (v : Sru) : (s.setSru v).toEngine = s.toEngine := rfl

@[simp] theorem State.setHost_acc (s : State) (v : List HostCommand) : (s.setHost v).acc = s.acc := rfl
@[simp] theorem State.setHost_pc (s : State) (v : List HostCommand) : (s.setHost v).pc = s.pc := rfl
@[simp] theorem State.setHost_stack (s : State) (v : List HostCommand) : (s.setHost v).stack = s.stack := rfl
@[simp] theorem State.setHost_latch (s : State) (v : List HostCommand) : (s.setHost v).latch = s.latch := rfl
@[simp] theorem State.setHost_running (s : State) (v : List HostCommand) : (s.setHost v).running = s.running := rfl
@[simp] theorem State.setHost_error (s : State) (v : List HostCommand) : (s.setHost v).error = s.error := rfl
@[simp] theorem State.setHost_mem (s : State) (v : List HostCommand) : (s.setHost v).mem = s.mem := rfl
@[simp] theorem State.setHost_input (s : State) (v : List HostCommand) : (s.setHost v).input = s.input := rfl
@[simp] theorem State.setHost_output (s : State) (v : List HostCommand) : (s.setHost v).output = s.output := rfl
@[simp] theorem State.setHost_sru (s : State) (v : List HostCommand) : (s.setHost v).sru = s.sru := rfl
@[simp] theorem State.setHost_host (s : State) (v : List HostCommand) : (s.setHost v).host = v := rfl
@[simp] theorem State.setHost_replies (s : State) (v : List HostCommand) : (s.setHost v).replies = s.replies := rfl
@[simp] theorem State.setHost_toEngine (s : State) (v : List HostCommand) : (s.setHost v).toEngine = s.toEngine := rfl

@[simp] theorem State.setReplies_acc (s : State) (v : List HostReply) : (s.setReplies v).acc = s.acc := rfl
@[simp] theorem State.setReplies_pc (s : State) (v : List HostReply) : (s.setReplies v).pc = s.pc := rfl
@[simp] theorem State.setReplies_stack (s : State) (v : List HostReply) : (s.setReplies v).stack = s.stack := rfl
@[simp] theorem State.setReplies_latch (s : State) (v : List HostReply) : (s.setReplies v).latch = s.latch := rfl
@[simp] theorem State.setReplies_running (s : State) (v : List HostReply) : (s.setReplies v).running = s.running := rfl
@[simp] theorem State.setReplies_error (s : State) (v : List HostReply) : (s.setReplies v).error = s.error := rfl
@[simp] theorem State.setReplies_mem (s : State) (v : List HostReply) : (s.setReplies v).mem = s.mem := rfl
@[simp] theorem State.setReplies_input (s : State) (v : List HostReply) : (s.setReplies v).input = s.input := rfl
@[simp] theorem State.setReplies_output (s : State) (v : List HostReply) : (s.setReplies v).output = s.output := rfl
@[simp] theorem State.setReplies_sru (s : State) (v : List HostReply) : (s.setReplies v).sru = s.sru := rfl
@[simp] theorem State.setReplies_host (s : State) (v : List HostReply) : (s.setReplies v).host = s.host := rfl
@[simp] theorem State.setReplies_replies (s : State) (v : List HostReply) : (s.setReplies v).replies = v := rfl
@[simp] theorem State.setReplies_toEngine (s : State) (v : List HostReply) : (s.setReplies v).toEngine = s.toEngine := rfl

/-- Two states are equal when all their fields are. -/
theorem State.eq_of_fields {s t : State} (hacc : s.acc = t.acc) (hpc : s.pc = t.pc) (hstack : s.stack = t.stack)
    (hlatch : s.latch = t.latch) (hrunning : s.running = t.running) (herror : s.error = t.error) (hmem : s.mem = t.mem)
    (hinput : s.input = t.input) (houtput : s.output = t.output) (hsru : s.sru = t.sru) (hhost : s.host = t.host)
    (hreplies : s.replies = t.replies) : s = t := by
  obtain ⟨⟨_, _, _, _, _, _, _, _, _⟩, _, _, _⟩ := s
  obtain ⟨⟨_, _, _, _, _, _, _, _, _⟩, _, _, _⟩ := t
  simp_all

end Sys2Proof.Machine
end

