-- ==== Sys2Proof/Laws/Memory.lean ====
section
/-! SUPPORT. The laws of memory: a read after a write, a write leaves every other address alone, and every operation keeps the
canonical form. -/
namespace Sys2Proof.Machine

theorem Memory.wfFrom_cons {lo k : Nat} {v : Byte} {m : Memory} :
    Memory.wfFrom lo ((k, v) :: m) = true ↔
      lo ≤ k ∧ k < 4096 ∧ v ≠ Config.memFill ∧ Memory.wfFrom (k + 1) m = true := by
  simp [Memory.wfFrom, and_assoc]

/-- A lower bound on the addresses may be weakened. -/
theorem Memory.wfFrom_mono {lo lo' : Nat} (hle : lo' ≤ lo) :
    ∀ {m : Memory}, Memory.wfFrom lo m = true → Memory.wfFrom lo' m = true
  | [], _ => rfl
  | (_, _) :: _, h => by
    rw [Memory.wfFrom_cons] at h ⊢
    exact ⟨by omega, h.2⟩

/-- Below its lower bound a canonical memory holds the fill value. -/
theorem Memory.lookup_below {a : Nat} :
    ∀ {lo : Nat} {m : Memory}, Memory.wfFrom lo m = true → a < lo → Memory.lookup m a = Config.memFill
  | _, [], _, _ => rfl
  | _, (k, _) :: _, h, ha => by
    rw [Memory.wfFrom_cons] at h
    have hka : k ≠ a := by omega
    have hm : Memory.lookup _ a = Config.memFill := Memory.lookup_below h.2.2.2 (Nat.lt_of_lt_of_le ha (Nat.le_succ_of_le h.1))
    simp [Memory.lookup, hka, hm]

/-- A write keeps the canonical form. -/
theorem Memory.wfFrom_store {a : Nat} {v : Byte} (ha : a < 4096) :
    ∀ {lo : Nat} {m : Memory}, Memory.wfFrom lo m = true → lo ≤ a → Memory.wfFrom lo (Memory.store m a v) = true
  | lo, [], _, hlo => by
    unfold Memory.store
    split
    · rfl
    · rw [Memory.wfFrom_cons]; exact ⟨hlo, ha, ‹_›, rfl⟩
  | lo, (k, w) :: m, h, hlo => by
    have hc := Memory.wfFrom_cons.mp h
    obtain ⟨hk, hk', hw, hm⟩ := hc
    unfold Memory.store
    split
    · split
      · exact h
      · rw [Memory.wfFrom_cons, Memory.wfFrom_cons]
        exact ⟨hlo, ha, ‹_›, by omega, hk', hw, hm⟩
    · split
      · subst a
        split
        · exact Memory.wfFrom_mono (by omega) hm
        · rw [Memory.wfFrom_cons]; exact ⟨hk, ha, ‹_›, hm⟩
      · rw [Memory.wfFrom_cons]
        exact ⟨hk, hk', hw, Memory.wfFrom_store ha hm (by omega)⟩

theorem Memory.wf_store {m : Memory} {a : Nat} {v : Byte} (h : Memory.wf m = true) (ha : a < 4096) :
    Memory.wf (Memory.store m a v) = true :=
  Memory.wfFrom_store ha h (Nat.zero_le a)

theorem Memory.wf_storeList :
    ∀ {m : Memory} {a : Addr} {bs : List Byte}, Memory.wf m = true → Memory.wf (Memory.storeList m a bs) = true
  | _, _, [], h => h
  | m, a, b :: _, h => Memory.wf_storeList (m := Memory.store m a.toNat b) (a := a + 1) (Memory.wf_store h a.isLt)

/-- A read after a write to the same address, in canonical memory. -/
theorem Memory.lookup_store_same {a : Nat} {v : Byte} :
    ∀ {lo : Nat} {m : Memory}, Memory.wfFrom lo m = true → Memory.lookup (Memory.store m a v) a = v
  | _, [], _ => by
    unfold Memory.store
    split
    · simp_all [Memory.lookup]
    · simp [Memory.lookup]
  | _, (k, w) :: m, h => by
    have hc := Memory.wfFrom_cons.mp h
    have hm := hc.2.2.2
    unfold Memory.store
    split
    · split
      · have hka : k ≠ a := by omega
        have hb := Memory.lookup_below hm (show a < k + 1 by omega)
        simp_all [Memory.lookup]
      · simp [Memory.lookup]
    · split
      · split
        · have hb := Memory.lookup_below hm (show a < k + 1 by omega)
          simp_all
        · simp [Memory.lookup]
      · have hka : k ≠ a := by omega
        simp [Memory.lookup, hka, Memory.lookup_store_same hm]

/-- A write leaves every other address alone. -/
theorem Memory.lookup_store_other {a b : Nat} {v : Byte} (hab : b ≠ a) :
    ∀ {m : Memory}, Memory.lookup (Memory.store m a v) b = Memory.lookup m b
  | [] => by
    unfold Memory.store
    split
    · rfl
    · simp [Memory.lookup, Ne.symm hab]
  | (k, w) :: m => by
    unfold Memory.store
    split
    · split
      · rfl
      · simp [Memory.lookup, Ne.symm hab]
    · split
      · subst a
        split <;> simp [Memory.lookup, Ne.symm hab]
      · simp only [Memory.lookup, Memory.lookup_store_other hab]

@[simp] theorem memWrite_acc (s : State) (a : Addr) (v : Byte) : (memWrite s a v).acc = s.acc := rfl
@[simp] theorem memWrite_pc (s : State) (a : Addr) (v : Byte) : (memWrite s a v).pc = s.pc := rfl
@[simp] theorem memWrite_stack (s : State) (a : Addr) (v : Byte) : (memWrite s a v).stack = s.stack := rfl
@[simp] theorem memWrite_latch (s : State) (a : Addr) (v : Byte) : (memWrite s a v).latch = s.latch := rfl
@[simp] theorem memWrite_running (s : State) (a : Addr) (v : Byte) : (memWrite s a v).running = s.running := rfl
@[simp] theorem memWrite_error (s : State) (a : Addr) (v : Byte) : (memWrite s a v).error = s.error := rfl
@[simp] theorem memWrite_mem (s : State) (a : Addr) (v : Byte) : (memWrite s a v).mem = Memory.store s.mem a.toNat v := rfl
@[simp] theorem memWrite_input (s : State) (a : Addr) (v : Byte) : (memWrite s a v).input = s.input := rfl
@[simp] theorem memWrite_output (s : State) (a : Addr) (v : Byte) : (memWrite s a v).output = s.output := rfl
@[simp] theorem memWrite_sru (s : State) (a : Addr) (v : Byte) : (memWrite s a v).sru = s.sru := rfl
@[simp] theorem memWrite_host (s : State) (a : Addr) (v : Byte) : (memWrite s a v).host = s.host := rfl
@[simp] theorem memWrite_replies (s : State) (a : Addr) (v : Byte) : (memWrite s a v).replies = s.replies := rfl

theorem memRead_memWrite_same {s : State} {a : Addr} {v : Byte} (h : Memory.wf s.mem = true) :
    memRead (memWrite s a v) a = v :=
  Memory.lookup_store_same h

theorem memRead_memWrite_other {s : State} {a b : Addr} {v : Byte} (hab : b ≠ a) :
    memRead (memWrite s a v) b = memRead s b :=
  Memory.lookup_store_other (fun h => hab (BitVec.eq_of_toNat_eq h))

/-- A read looks at memory alone. -/
theorem memRead_congr {s t : State} (h : t.mem = s.mem) (a : Addr) : memRead t a = memRead s a := by
  simp [memRead, h]

end Sys2Proof.Machine
end

