-- ==== Sys2Proof/Laws/Operations.lean ====
section
/-! SUPPORT. What each shared operation can do, once: the provers cite these instead of unfolding the operations. -/
namespace Sys2Proof.Machine

/-! ### Resolution -/

@[simp] theorem resolve_state (op12 : Addr) (s : State) : (resolve op12 s).2 = s.setLatch false := rfl

theorem resolve_direct {s : State} (h : s.latch = false) (op12 : Addr) : (resolve op12 s).1 = op12 := by
  simp [resolve, h]

theorem resolve_indirect {s : State} (h : s.latch = true) (op12 : Addr) :
    (resolve op12 s).1 = addr12 (memRead s op12) (memRead s (op12 + 1)) := by
  simp [resolve, h, pointerAt]

@[simp] theorem resolveOperand_state (op12 : Addr) (s : State) : (resolveOperand op12 s).2 = s.setLatch false := rfl

@[simp] theorem resolveOperand_value (op12 : Addr) (s : State) :
    (resolveOperand op12 s).1 = memRead s (resolve op12 s).1 := rfl

/-- The address a byte pair holds, as a number. -/
theorem addr12_toNat (hi lo : Byte) : (addr12 hi lo).toNat = (256 * hi.toNat + lo.toNat) % 4096 := by
  have hlo := lo.isLt
  simp only [addr12, lowNibble, BitVec.toNat_append, BitVec.extractLsb'_toNat, Nat.shiftRight_zero]
  rw [← Nat.shiftLeft_add_eq_or_of_lt (by simpa using hlo), Nat.shiftLeft_eq]
  omega

/-! ### Program counter, halt, fault entry -/

@[simp] theorem advancePc_eq (s : State) (size : Addr) : advancePc s size = s.setPc (s.pc + size) := rfl

@[simp] theorem halt_eq (s : State) : halt s = (s.setRunning false).setError false := rfl

@[simp] theorem takeFault_acc (f : RuntimeFault) (s : State) : (takeFault f s).acc = s.acc := rfl
@[simp] theorem takeFault_pc (f : RuntimeFault) (s : State) : (takeFault f s).pc = 0 := rfl
@[simp] theorem takeFault_stack (f : RuntimeFault) (s : State) : (takeFault f s).stack = [] := rfl
@[simp] theorem takeFault_latch (f : RuntimeFault) (s : State) : (takeFault f s).latch = s.latch := rfl
@[simp] theorem takeFault_running (f : RuntimeFault) (s : State) : (takeFault f s).running = false := rfl
@[simp] theorem takeFault_error (f : RuntimeFault) (s : State) : (takeFault f s).error = true := rfl
@[simp] theorem takeFault_mem (f : RuntimeFault) (s : State) : (takeFault f s).mem = s.mem := rfl
@[simp] theorem takeFault_input (f : RuntimeFault) (s : State) : (takeFault f s).input = s.input := rfl
@[simp] theorem takeFault_output (f : RuntimeFault) (s : State) : (takeFault f s).output = s.output := rfl
@[simp] theorem takeFault_sru (f : RuntimeFault) (s : State) : (takeFault f s).sru = s.sru := rfl
@[simp] theorem takeFault_host (f : RuntimeFault) (s : State) : (takeFault f s).host = s.host := rfl
@[simp] theorem takeFault_replies (f : RuntimeFault) (s : State) : (takeFault f s).replies = s.replies := rfl

/-! ### Stack and devices -/

theorem popStack_none {s : State} : popStack s = none ↔ s.stack = [] := by
  unfold popStack
  split <;> simp [*]

theorem popStack_some {s t : State} {r : Addr} :
    popStack s = some (r, t) ↔ ∃ rest, s.stack = r :: rest ∧ t = s.setStack rest := by
  unfold popStack
  split
  · simp [*]
  · rename_i h
    simp only [h, Option.some.injEq, Prod.mk.injEq, List.cons.injEq]
    constructor
    · rintro ⟨rfl, rfl⟩; exact ⟨_, ⟨rfl, rfl⟩, rfl⟩
    · rintro ⟨_, ⟨rfl, rfl⟩, rfl⟩; exact ⟨rfl, rfl⟩

theorem devRead_none {s : State} : devRead s = none ↔ s.input.tokens.length ≤ s.input.pos := by
  unfold devRead
  cases h : s.input.tokens[s.input.pos]? with
  | none => simpa using h
  | some t => simpa using (List.getElem?_eq_some_iff.mp h).1

theorem devRead_some {s t : State} {b : Byte} :
    devRead s = some (b, t) ↔
      s.input.tokens[s.input.pos]? = some b ∧ t = s.setInput ⟨s.input.tokens, s.input.pos + 1⟩ := by
  unfold devRead
  cases s.input.tokens[s.input.pos]? with
  | none => simp
  | some t' => simp [eq_comm]

@[simp] theorem devWrite_eq (s : State) (b : Byte) : devWrite s b = s.setOutput (s.output ++ [b]) := rfl

/-! ### The ALU -/

/-- trunc8 keeps a number modulo 256, read back as a signed byte. -/
theorem signed8_trunc8 (z : Int) : signed8 (trunc8 z) = z.bmod 256 := by
  simp [signed8, trunc8, BitVec.toInt_ofInt]

/-- The common sequence of the arithmetic instructions, as updates of the starting state. -/
theorem arith_eq (op : Int → Int → Int) (op12 : Addr) (s : State) :
    arith op op12 s =
      (((s.setLatch false).setAcc (trunc8 (op (signed8 s.acc) (signed8 (memRead s (resolve op12 s).1))))).setPc (s.pc + 2)) :=
  rfl

/-- Where the divisor divides exactly or the signs agree the quotient does not depend on DIV_ROUND. -/
theorem quot_fixed {a m : Int} (h : a.tmod m = 0 ∨ (a < 0 ↔ m < 0)) : quot a m = a.tdiv m := by
  simp [quot, h]

/-- Elsewhere it is rounded as DIV_ROUND says. -/
theorem quot_rounded {a m : Int} (h : ¬(a.tmod m = 0 ∨ (a < 0 ↔ m < 0))) : quot a m = quotRounded Config.divRound a m := by
  simp [quot, h]

end Sys2Proof.Machine
end

