-- ==== Sys2Proof/Laws/Exec.lean ====
section
/-! SUPPORT. The inversion of `exec`: every next state each instruction can lead to, as updates of the starting state. Invariants
and frames are case analyses of it. -/
namespace Sys2Proof.Machine

/-- The resolved address as the number the spec gives (20_memory.md R36, R37). -/
theorem resolve_toNat (op12 : Addr) (s : State) : (resolve op12 s).1.toNat = addressOf s op12 := by
  unfold addressOf
  cases h : s.latch
  · simp [resolve_direct h]
  · simp [resolve_indirect h, addr12_toNat]

/-- The byte at the resolved address. -/
theorem memRead_resolve (op12 : Addr) (s : State) : memRead s (resolve op12 s).1 = operandOf s op12 := by
  simp [memRead, operandOf, resolve_toNat]

theorem execDIV_zero {op12 : Addr} {s : State} (h : operandOf s op12 = 0) :
    exec (.div op12) s = .next (takeFault .divideByZero (s.setLatch false)) := by
  rw [← memRead_resolve] at h
  simp only [exec, execDIV, resolveOperand, h, if_true, resolve_state]

theorem execDIV_nonzero {op12 : Addr} {s : State} (h : operandOf s op12 ≠ 0) :
    exec (.div op12) s = .next (arith quot op12 s) := by
  rw [← memRead_resolve] at h
  simp only [exec, execDIV, resolveOperand, h, if_false]

theorem execOS_return {s : State} {r : Addr} {rest : List Addr} (h : s.stack = r :: rest) :
    exec (.os 0) s = .next (((s.setLatch false).setStack rest).setPc (r + 2)) := by
  have hp : popStack (clearLatch s) = some (r, (clearLatch s).setStack rest) := popStack_some.mpr ⟨rest, h, rfl⟩
  simp only [exec, execOS, if_true, hp]
  rfl

theorem execOS_halt {s : State} (h : s.stack = []) : exec (.os 0) s = .next (halt (s.setLatch false)) := by
  have hp : popStack (clearLatch s) = none := popStack_none.mpr h
  simp only [exec, execOS, if_true, hp]
  rfl

theorem execOS_error {s : State} {sub4 : Nibble} (h : sub4 ≠ 0) :
    exec (.os sub4) s = .next (takeFault .osError (s.setLatch false)) := by
  simp only [exec, execOS, h, if_false]
  rfl

/-- Bit 0 of a sub-operand is its parity. -/
theorem getLsbD_zero : ∀ n : Nibble, n.getLsbD 0 = decide (n.toNat % 2 = 1) := by decide

theorem execIO_write {s : State} {sub4 : Nibble} (h : sub4.toNat % 2 = 1) :
    exec (.io sub4) s = .next ((s.setOutput (s.output ++ [s.acc])).setPc (s.pc + 1)) := by
  simp only [exec, execIO, getLsbD_zero, h, decide_true, if_true]
  rfl

theorem execIO_read {s : State} {sub4 : Nibble} {tok : Byte} (h : sub4.toNat % 2 = 0)
    (ht : s.input.tokens[s.input.pos]? = some tok) :
    exec (.io sub4) s = .next (((s.setInput ⟨s.input.tokens, s.input.pos + 1⟩).setAcc tok).setPc (s.pc + 1)) := by
  have hd : devRead s = some (tok, s.setInput ⟨s.input.tokens, s.input.pos + 1⟩) := devRead_some.mpr ⟨ht, rfl⟩
  have h1 : ¬ sub4.toNat % 2 = 1 := by omega
  simp only [exec, execIO, getLsbD_zero, h1, decide_false, hd, Bool.false_eq_true, if_false]
  rfl

theorem execIO_exhausted {s : State} {sub4 : Nibble} (h : sub4.toNat % 2 = 0) (ht : s.input.tokens.length ≤ s.input.pos) :
    exec (.io sub4) s = .next (takeFault .inputExhausted s) := by
  have hd : devRead s = none := devRead_none.mpr ht
  have h1 : ¬ sub4.toNat % 2 = 1 := by omega
  simp only [exec, execIO, getLsbD_zero, h1, decide_false, hd, Bool.false_eq_true, if_false]

/-- Every next state an instruction can lead to, with the condition it comes under. -/
def ExecEffect (i : Instr) (s t : State) : Prop :=
  match i with
  | .jp a => t = (s.setLatch false).setPc (resolve a s).1
  | .jz a =>
    (s.acc = 0 ∧ t = (s.setLatch false).setPc (resolve a s).1) ∨ (s.acc ≠ 0 ∧ t = (s.setLatch false).setPc (s.pc + 2))
  | .jn a =>
    (s.acc.msb = true ∧ t = (s.setLatch false).setPc (resolve a s).1) ∨
      (s.acc.msb = false ∧ t = (s.setLatch false).setPc (s.pc + 2))
  | .cn n => (n = 0 ∧ t = halt s) ∨ (n ≠ 0 ∧ t = (s.setLatch true).setPc (s.pc + 1))
  | .add a => t = arith (fun x y => x + y) a s
  | .sub a => t = arith (fun x y => x - y) a s
  | .mult a => t = arith (fun x y => x * y) a s
  | .div a =>
    (operandOf s a = 0 ∧ t = takeFault .divideByZero (s.setLatch false)) ∨ (operandOf s a ≠ 0 ∧ t = arith quot a s)
  | .ld a => t = ((s.setLatch false).setAcc (operandOf s a)).setPc (s.pc + 2)
  | .mm a => t = (memWrite (s.setLatch false) (resolve a s).1 s.acc).setPc (s.pc + 2)
  | .sc a => t = ((s.setLatch false).setStack (s.pc :: s.stack)).setPc (resolve a s).1
  | .os n =>
    (n ≠ 0 ∧ t = takeFault .osError (s.setLatch false)) ∨
      (n = 0 ∧ s.stack = [] ∧ t = halt (s.setLatch false)) ∨
      (n = 0 ∧ ∃ r rest, s.stack = r :: rest ∧ t = ((s.setLatch false).setStack rest).setPc (r + 2))
  | .io n =>
    (n.toNat % 2 = 1 ∧ t = (s.setOutput (s.output ++ [s.acc])).setPc (s.pc + 1)) ∨
      (n.toNat % 2 = 0 ∧ s.input.tokens.length ≤ s.input.pos ∧ t = takeFault .inputExhausted s) ∨
      (n.toNat % 2 = 0 ∧ ∃ tok, s.input.tokens[s.input.pos]? = some tok ∧
        t = ((s.setInput ⟨s.input.tokens, s.input.pos + 1⟩).setAcc tok).setPc (s.pc + 1))
  | .illegalD _ | .illegalE _ | .illegalF _ => t = takeFault .illegalOpcode s

theorem exec_effect {i : Instr} {s t : State} (h : exec i s = .next t) : ExecEffect i s t := by
  have inj : ∀ {x}, exec i s = .next x → t = x := fun hx => by rw [hx] at h; injection h with h; exact h.symm
  cases i with
  | jp a => exact inj rfl
  | jz a =>
    by_cases hz : s.acc = 0
    · exact .inl ⟨hz, inj (by simp only [exec, execJZ, accZero, beq_iff_eq, hz, if_true]; rfl)⟩
    · exact .inr ⟨hz, inj (by simp only [exec, execJZ, accZero, beq_iff_eq, hz, if_false]; rfl)⟩
  | jn a =>
    cases hz : s.acc.msb
    · exact .inr ⟨hz, inj (by simp only [exec, execJN, accNegative, hz, Bool.false_eq_true, if_false]; rfl)⟩
    · exact .inl ⟨hz, inj (by simp only [exec, execJN, accNegative, hz, if_true]; rfl)⟩
  | cn n =>
    by_cases hz : n = 0
    · exact .inl ⟨hz, inj (by simp only [exec, execCN, hz, if_true])⟩
    · exact .inr ⟨hz, inj (by simp only [exec, execCN, hz, if_false]; rfl)⟩
  | add a => exact inj rfl
  | sub a => exact inj rfl
  | mult a => exact inj rfl
  | div a =>
    by_cases hz : operandOf s a = 0
    · exact .inl ⟨hz, inj (execDIV_zero hz)⟩
    · exact .inr ⟨hz, inj (execDIV_nonzero hz)⟩
  | ld a =>
    show t = ((s.setLatch false).setAcc (operandOf s a)).setPc (s.pc + 2)
    rw [← memRead_resolve]
    exact inj rfl
  | mm a => exact inj rfl
  | sc a => exact inj rfl
  | os n =>
    by_cases hz : n = 0
    · subst hz
      cases hs : s.stack with
      | nil => exact .inr (.inl ⟨rfl, hs, inj (execOS_halt hs)⟩)
      | cons r rest => exact .inr (.inr ⟨rfl, r, rest, hs, inj (execOS_return hs)⟩)
    · exact .inl ⟨hz, inj (execOS_error hz)⟩
  | io n =>
    rcases Nat.mod_two_eq_zero_or_one n.toNat with hn | hn
    · cases ht : s.input.tokens[s.input.pos]? with
      | none => exact .inr (.inl ⟨hn, by simpa using ht, inj (execIO_exhausted hn (by simpa using ht))⟩)
      | some tok => exact .inr (.inr ⟨hn, tok, ht, inj (execIO_read hn ht)⟩)
    · exact .inl ⟨hn, inj (execIO_write hn)⟩
  | illegalD n => exact inj rfl
  | illegalE n => exact inj rfl
  | illegalF n => exact inj rfl

/-- A running engine's step is the execution of the instruction at PC. -/
theorem step_running {s : State} (h : s.running = true) : step s = exec (fetchInstr s) s := by
  simp only [step, h, if_true]

/-- A stopped engine's step. -/
theorem step_stopped {s : State} (h : s.running = false) : step s = .next (idleStep s) := by
  simp only [step, h, Bool.false_eq_true, if_false]

/-- With the engine stopped and the SRU at rest, the oldest pending command is executed. -/
theorem step_host {s : State} {c : HostCommand} {rest : List HostCommand} (hr : s.running = false) (hp : s.sru.phase = .idle)
    (hh : s.host = c :: rest) : step s = .next (hostDo c (s.setHost rest)) := by
  rw [step_stopped hr]
  simp only [idleStep, hp, if_true, hostStep, hh]

/-- With the engine stopped and an assembly in progress, the SRU moves. -/
theorem step_sru {s : State} (hr : s.running = false) (hp : s.sru.phase ≠ .idle) : step s = .next (sruStep s) := by
  rw [step_stopped hr]
  simp only [idleStep, hp, if_false]

end Sys2Proof.Machine
end

