-- ==== Sys2Proof/Laws/Sru.lean ====
section
/-! SUPPORT. What each step of the SRU's passes can do, once: pass 1 touches the symbol table, CURSOR and COUNT alone, pass 2
emits and touches nothing else. -/
namespace Sys2Proof.Machine

/-! ### Emission -/

theorem Sru.emitList_append (r : Sru) (bs cs : List Byte) : r.emitList (bs ++ cs) = (r.emitList bs).emitList cs := by
  simp [Sru.emitList]

@[simp] theorem Sru.emitList_phase (r : Sru) (bs : List Byte) : (r.emitList bs).phase = r.phase := by
  induction bs generalizing r with
  | nil => rfl
  | cons b bs ih => exact ih (r.emit b)

@[simp] theorem Sru.emitList_source (r : Sru) (bs : List Byte) : (r.emitList bs).source = r.source := by
  induction bs generalizing r with
  | nil => rfl
  | cons b bs ih => exact ih (r.emit b)

@[simp] theorem Sru.emitList_symtab (r : Sru) (bs : List Byte) : (r.emitList bs).symtab = r.symtab := by
  induction bs generalizing r with
  | nil => rfl
  | cons b bs ih => exact ih (r.emit b)

@[simp] theorem Sru.emitList_cursor (r : Sru) (bs : List Byte) : (r.emitList bs).cursor = r.cursor := by
  induction bs generalizing r with
  | nil => rfl
  | cons b bs ih => exact ih (r.emit b)

@[simp] theorem Sru.emitList_count (r : Sru) (bs : List Byte) : (r.emitList bs).count = r.count := by
  induction bs generalizing r with
  | nil => rfl
  | cons b bs ih => exact ih (r.emit b)

@[simp] theorem Sru.emitList_line (r : Sru) (bs : List Byte) : (r.emitList bs).line = r.line := by
  induction bs generalizing r with
  | nil => rfl
  | cons b bs ih => exact ih (r.emit b)

@[simp] theorem Sru.emitList_obj (r : Sru) (bs : List Byte) : (r.emitList bs).obj = r.obj ++ bs := by
  induction bs generalizing r with
  | nil => simp [Sru.emitList]
  | cons b bs ih =>
    have h : ((r.emit b).emitList bs).obj = (r.emit b).obj ++ bs := ih (r.emit b)
    simpa [Sru.emitList, Sru.emit] using h

/-- CHK after an emission: the plain sum goes on modulo 256. -/
theorem Sru.emitList_chk (r : Sru) (bs : List Byte) :
    (r.emitList bs).chk.toNat = (r.chk.toNat + (bs.map BitVec.toNat).sum) % 256 := by
  induction bs generalizing r with
  | nil => simp [Sru.emitList, Nat.mod_eq_of_lt r.chk.isLt]
  | cons b bs ih =>
    have h : ((r.emit b).emitList bs).chk.toNat = ((r.emit b).chk.toNat + (bs.map BitVec.toNat).sum) % 256 := ih (r.emit b)
    rw [show r.emitList (b :: bs) = (r.emit b).emitList bs from rfl, h]
    simp only [Sru.emit, BitVec.toNat_add, List.map_cons, List.sum_cons]
    omega

/-- An emission is all `emitList` does. -/
theorem emits_emitList (r : Sru) (bs : List Byte) : emits bs r (r.emitList bs) :=
  ⟨Sru.emitList_obj r bs, Sru.emitList_chk r bs, Sru.emitList_phase r bs, Sru.emitList_source r bs,
    Sru.emitList_symtab r bs, Sru.emitList_cursor r bs, Sru.emitList_count r bs, Sru.emitList_line r bs⟩

/-! ### Pass 1 -/

/-- What a line of pass 1 that the SRU goes on from has done: the symbol table as it was, or with one new, unreserved name. -/
theorem pass1Line_next {r r' : Sru} {text : Line} (h : pass1Line r text = .next r') :
    r'.phase = r.phase ∧ r'.source = r.source ∧ r'.chk = r.chk ∧ r'.line = r.line ∧ r'.obj = r.obj ∧
    (r'.symtab = r.symtab ∨
      ∃ name, isReserved name = false ∧ symLookup r.symtab name = none ∧ r'.symtab = (name, r.cursor) :: r.symtab) := by
  unfold pass1Line at h
  split at h
  · cases h; exact ⟨rfl, rfl, rfl, rfl, rfl, .inl rfl⟩
  · split at h
    · unfold pass1Label at h
      split at h
      · cases h
      · rename_i hres
        split at h
        · cases h
        · rename_i hdup
          have hnew : symLookup r.symtab _ = none := Option.not_isSome_iff_eq_none.mp hdup
          have hfree := Bool.not_eq_true _ ▸ hres
          split at h
          · cases h; exact ⟨rfl, rfl, rfl, rfl, rfl, .inr ⟨_, hfree, hnew, rfl⟩⟩
          · split at h
            · cases h; exact ⟨rfl, rfl, rfl, rfl, rfl, .inr ⟨_, hfree, hnew, rfl⟩⟩
            · cases h
    · unfold pass1Statement at h
      split at h
      · split at h
        · cases h
        · split at h
          · cases h; exact ⟨rfl, rfl, rfl, rfl, rfl, .inl rfl⟩
          · cases h
      · split at h
        · cases h
        · split at h
          · cases h; exact ⟨rfl, rfl, rfl, rfl, rfl, .inl rfl⟩
          · cases h

/-- Pass 1 ends at an End line without having touched anything (R118). -/
theorem pass1Line_finish {r r' : Sru} {text : Line} (h : pass1Line r text = .finish r') : r' = r := by
  unfold pass1Line at h
  split at h
  · cases h
  · split at h
    · unfold pass1Label at h
      repeat' split at h
      all_goals cases h
    · unfold pass1Statement at h
      repeat' split at h
      all_goals first | cases h; done | (cases h; rfl)

/-- Reserved names, spelled out (R113). -/
theorem isReserved_iff {t : Token} :
    isReserved t = true ↔ (∃ row ∈ catalog, t = row.name) ∨ t = tokOrigin ∨ t = tokEnd ∨ t = tokConstant := by
  simp only [isReserved, catalogByName, Bool.or_eq_true, List.find?_isSome, beq_iff_eq, or_assoc]
  exact or_congr (exists_congr fun _ => and_congr_right fun _ => eq_comm) Iff.rfl

/-- Pass 1 ends at an End line only (R118). -/
theorem pass1Line_finish_end {r r' : Sru} {text : Line} (h : pass1Line r text = .finish r') :
    isLabelLine text = false ∧ (tokens text).head? = some tokEnd := by
  unfold pass1Line at h
  split at h
  · cases h
  · rename_i ht
    split at h
    · unfold pass1Label at h
      repeat' split at h
      all_goals cases h
    · rename_i hl
      refine ⟨by simpa using hl, ?_⟩
      unfold pass1Statement at h
      split at h
      · repeat' split at h
        all_goals cases h
      · split at h
        · rename_i he; rw [ht, he]; rfl
        · split at h <;> cases h

/-- Pass 1 over two stretches of lines, the first walked to its end without an End line: one after the other. -/
theorem pass1_append {before : List Line} (more : List Line) {r r' : Sru} (h : pass1 before r = .finish r')
    (hend : ∀ l ∈ before, isLabelLine l = true ∨ (tokens l).head? ≠ some tokEnd) :
    pass1 (before ++ more) r = pass1 more r' ∧ r'.line = r.line + before.length := by
  induction before generalizing r with
  | nil => cases h; exact ⟨rfl, rfl⟩
  | cons text rest ih =>
    simp only [pass1, List.cons_append] at h ⊢
    cases hl : pass1Line r.nextLine text with
    | next r1 =>
      rw [hl] at h
      have h1 := ih h fun l hm => hend l (List.mem_cons_of_mem _ hm)
      have h2 : r1.line = r.line + 1 := (pass1Line_next hl).2.2.2.1
      exact ⟨h1.1, by rw [h1.2, h2, List.length_cons]; omega⟩
    | finish r1 =>
      obtain ⟨hs, ht⟩ := pass1Line_finish_end hl
      rcases hend text List.mem_cons_self with h1 | h1
      · rw [hs] at h1; cases h1
      · exact absurd ht h1
    | error e n => rw [hl] at h; cases h

/-! ### Pass 2 -/

/-- What a line of pass 2 that the SRU goes on from has done: it has emitted some bytes. -/
theorem pass2Line_next {r r' : Sru} {text : Line} (h : pass2Line r text = .next r') : ∃ bs, r' = r.emitList bs := by
  unfold pass2Line at h
  split at h
  · cases h; exact ⟨[], rfl⟩
  · split at h
    · unfold pass2Label at h
      repeat' split at h
      all_goals first | cases h; done | (cases h; exact ⟨[], rfl⟩) | (cases h; exact ⟨[_], rfl⟩)
    · unfold pass2Statement at h
      repeat' split at h
      all_goals first | cases h; done | (cases h; exact ⟨[], rfl⟩) | (cases h; exact ⟨_, rfl⟩)

/-- Pass 2 ends at an End line without having emitted anything (R118). -/
theorem pass2Line_finish {r r' : Sru} {text : Line} (h : pass2Line r text = .finish r') : r' = r := by
  unfold pass2Line at h
  split at h
  · cases h
  · split at h
    · unfold pass2Label at h
      repeat' split at h
      all_goals cases h
    · unfold pass2Statement at h
      repeat' split at h
      all_goals first | cases h; done | (cases h; rfl)

/-- The header, when the start of pass 2 accepts (R122, R125, R129): line 1 is an Origin statement, COUNT fits one byte, and the
three header bytes are emitted. -/
theorem emitHeader_next {r r' : Sru} (h : emitHeader r = .next r') :
    ∃ text rest t2 v, r.source = text :: rest ∧ isLabelLine text = false ∧ tokens text = [tokOrigin, t2] ∧
      hexValue t2 = some v ∧ r.count ≤ 255 ∧
      r' = ({ r with line := 1 } : Sru).emitList
        [BitVec.ofNat 8 (v % 4096 / 256), BitVec.ofNat 8 v, BitVec.ofNat 8 r.count] := by
  unfold emitHeader at h
  split at h
  · cases h
  · split at h
    · split at h
      · cases h
      · split at h
        · cases h
        · split at h
          · cases h
          · split at h
            · cases h
            · cases h
              simp_all [Config.objMaxLen]
    · cases h

theorem emitHeader_not_finish {r r' : Sru} : emitHeader r ≠ .finish r' := by
  intro h
  unfold emitHeader at h
  repeat' split at h
  all_goals cases h

end Sys2Proof.Machine
end

