-- ==== Sys2Proof/Laws/HostPort.lean ====
section
/-! SUPPORT. What each operation of the host's port and of the text codec can do, once: consecutive stores, the checksum, the
object stream's load, the two passes' byte counts, a digit and its text. -/
namespace Sys2Proof.Machine

/-! ### Consecutive stores (R31, R184) -/

/-- Consecutive stores leave every address outside their range alone. -/
theorem Memory.lookup_storeList_other (bs : List Byte) :
    ∀ (m : Memory) (a x : Addr), (∀ k < bs.length, x ≠ a + BitVec.ofNat 12 k) →
      Memory.lookup (Memory.storeList m a bs) x.toNat = Memory.lookup m x.toNat := by
  induction bs with
  | nil => intros; rfl
  | cons b bs ih =>
    intro m a x h
    rw [Memory.storeList, ih]
    · exact Memory.lookup_store_other fun e => h 0 (by simp) (by simpa using BitVec.eq_of_toNat_eq e)
    · intro k hk e
      refine h (k + 1) (by simpa using hk) (e.trans ?_)
      apply BitVec.eq_of_toNat_eq
      simp
      omega

/-- Consecutive stores, no more than the memory has cells, put each byte at its place. -/
theorem Memory.lookup_storeList_same (bs : List Byte) :
    ∀ (m : Memory) (a : Addr), Memory.wf m = true → bs.length ≤ 4096 → ∀ k b, bs[k]? = some b →
      Memory.lookup (Memory.storeList m a bs) (a + BitVec.ofNat 12 k).toNat = b := by
  induction bs with
  | nil => intro m a _ _ k b h; simp at h
  | cons c bs ih =>
    intro m a hw hl k b h
    rw [Memory.storeList]
    simp only [List.length_cons] at hl
    cases k with
    | zero =>
      obtain rfl : c = b := by simpa using h
      rw [Memory.lookup_storeList_other]
      · simpa using Memory.lookup_store_same (v := c) hw
      · intro k hk e
        have := congrArg BitVec.toNat e
        simp at this
        have := a.isLt
        omega
    | succ k =>
      have h1 := ih (Memory.store m a.toNat c) (a + 1) (Memory.wf_store hw a.isLt) (by omega) k b (by simpa using h)
      rw [← h1]
      congr 2
      apply BitVec.eq_of_toNat_eq
      simp
      omega

/-! ### HostLoad -/

theorem checksum_toNat (bs : List Byte) : (checksum bs).toNat = (bs.map BitVec.toNat).sum % 256 := by
  have key : ∀ (bs : List Byte) (c : Byte),
      (bs.foldl (fun c b => c + b) c).toNat = (c.toNat + (bs.map BitVec.toNat).sum) % 256 := by
    intro bs
    induction bs with
    | nil => intro c; simp [Nat.mod_eq_of_lt c.isLt]
    | cons b bs ih => intro c; simp only [List.foldl_cons, ih, List.map_cons, List.sum_cons, BitVec.toNat_add]; omega
  simpa [checksum] using key bs 0

/-- A stream of the right length is loaded, and `ok` says whether its last byte is the sum of those before it. -/
theorem loadObject_stream (hi lo len cc : Byte) (payload : List Byte) (m : Memory) (hl : payload.length = len.toNat) :
    loadObject (hi :: lo :: len :: payload ++ [cc]) m =
      some (Memory.storeList m (addr12 hi lo) payload, cc == checksum (hi :: lo :: len :: payload)) := by
  simp only [loadObject, List.cons_append]
  rw [if_pos (by simp [hl]), ← hl, List.take_left, List.drop_left]
  simp

theorem loadObject_refused {obj : List Byte} (h : ∀ len, obj[2]? = some len → obj.length ≠ len.toNat + 4) (m : Memory) :
    loadObject obj m = none := by
  unfold loadObject
  split
  · have h1 := h _ rfl
    simp only [List.length_cons] at h1
    rw [if_neg (by omega)]
  · rfl

theorem loadObject_wf {obj : List Byte} {m m' : Memory} {ok : Bool} (h : loadObject obj m = some (m', ok))
    (hw : Memory.wf m = true) : Memory.wf m' = true := by
  unfold loadObject at h
  split at h
  · split at h
    · cases h; exact Memory.wf_storeList hw
    · cases h
  · cases h

/-! ### The two passes count the same bytes (R119, R125) -/

theorem encodeRow_length {t : Token} {row : CatalogRow} (h : catalogByName t = some row) (v : Addr) :
    (encodeRow row v).length = row.size := by
  have hm : row ∈ catalog := List.mem_of_find?_eq_some h
  revert hm; clear h; revert row
  simp only [catalog, List.forall_mem_cons]
  simp [encodeRow, wordBytes, controlByte]

/-- `symLookup` answers none only for a name the table lacks. -/
theorem symLookup_none {tab : List (Token × Addr)} {t : Token} (h : symLookup tab t = none) : t ∉ tab.map Prod.fst := by
  induction tab with
  | nil => simp
  | cons e tab ih =>
    obtain ⟨k, a⟩ := e
    simp only [symLookup] at h
    split at h
    · cases h
    · simp only [List.map_cons, List.mem_cons, not_or]
      exact ⟨fun x => by simp_all, ih h⟩

/-! ### The text codec -/

theorem textDigit_hexChar : ∀ n : Nibble, textDigit (hexChar n) = some n.toNat := by decide

theorem dropText_append (p t : List Char) : dropText p (p ++ t) = some t := by
  induction p with
  | nil => cases t <;> rfl
  | cons a p ih => simp [dropText, ih]

theorem byte_of_nibbles : ∀ b : Byte, BitVec.ofNat 8 (16 * (b.extractLsb' 4 4).toNat + (b.extractLsb' 0 4).toNat) = b := by
  decide

end Sys2Proof.Machine
end

