-- ==== Sys2Proof/Laws/PerInstr.lean ====
section
/-! SUPPORT. Statements made of every instruction as syntax, one lemma per constructor. -/
namespace Sys2Proof.Laws

/-- The encoding of an instruction has its size's length and begins with its opcode nibble, which names its mnemonic in the
catalog, or nothing for an illegal nibble (30_encoding.md R50, R51, R53, R55). -/
def Encoded.Statement (i : Instr) : Prop :=
  ∃ b1 tail, encode i = b1 :: tail ∧ tail.length = (if hasSecondByte b1 then 1 else 0) ∧
    (catalogByNibble (opcodeNibble b1)).map CatalogRow.mnemonic = i.mnemonic?

theorem Encoded.of_nibble {i : Instr} {b1 : Byte} {tail : List Byte} {nib : Nibble} (he : encode i = b1 :: tail)
    (hn : opcodeNibble b1 = nib)
    (ht : tail.length = (match catalogByNibble nib with | some row => if row.size == 2 then 1 else 0 | none => 0))
    (hm : (catalogByNibble nib).map CatalogRow.mnemonic = i.mnemonic?) : Encoded.Statement i := by
  refine ⟨b1, tail, he, ?_, by rw [hn]; exact hm⟩
  rw [ht, hasSecondByte, hn]
  cases catalogByNibble nib with
  | none => rfl
  | some row => rfl

/-- The nibble put in front is the one read back. -/
theorem opcodeNibble_append : ∀ nib low : Nibble, opcodeNibble (nib ++ low) = nib := by decide

theorem Encoded.jp (a : Addr) : Encoded.Statement (.jp a) := Encoded.of_nibble rfl (opcodeNibble_append _ _) rfl rfl
theorem Encoded.jz (a : Addr) : Encoded.Statement (.jz a) := Encoded.of_nibble rfl (opcodeNibble_append _ _) rfl rfl
theorem Encoded.jn (a : Addr) : Encoded.Statement (.jn a) := Encoded.of_nibble rfl (opcodeNibble_append _ _) rfl rfl
theorem Encoded.cn (n : Nibble) : Encoded.Statement (.cn n) := Encoded.of_nibble rfl (opcodeNibble_append _ _) rfl rfl
theorem Encoded.add (a : Addr) : Encoded.Statement (.add a) := Encoded.of_nibble rfl (opcodeNibble_append _ _) rfl rfl
theorem Encoded.sub (a : Addr) : Encoded.Statement (.sub a) := Encoded.of_nibble rfl (opcodeNibble_append _ _) rfl rfl
theorem Encoded.mult (a : Addr) : Encoded.Statement (.mult a) := Encoded.of_nibble rfl (opcodeNibble_append _ _) rfl rfl
theorem Encoded.div (a : Addr) : Encoded.Statement (.div a) := Encoded.of_nibble rfl (opcodeNibble_append _ _) rfl rfl
theorem Encoded.ld (a : Addr) : Encoded.Statement (.ld a) := Encoded.of_nibble rfl (opcodeNibble_append _ _) rfl rfl
theorem Encoded.mm (a : Addr) : Encoded.Statement (.mm a) := Encoded.of_nibble rfl (opcodeNibble_append _ _) rfl rfl
theorem Encoded.sc (a : Addr) : Encoded.Statement (.sc a) := Encoded.of_nibble rfl (opcodeNibble_append _ _) rfl rfl
theorem Encoded.os (n : Nibble) : Encoded.Statement (.os n) := Encoded.of_nibble rfl (opcodeNibble_append _ _) rfl rfl
theorem Encoded.io (n : Nibble) : Encoded.Statement (.io n) := Encoded.of_nibble rfl (opcodeNibble_append _ _) rfl rfl
theorem Encoded.illegalD (n : Nibble) : Encoded.Statement (.illegalD n) :=
  Encoded.of_nibble rfl (opcodeNibble_append _ _) rfl rfl
theorem Encoded.illegalE (n : Nibble) : Encoded.Statement (.illegalE n) :=
  Encoded.of_nibble rfl (opcodeNibble_append _ _) rfl rfl
theorem Encoded.illegalF (n : Nibble) : Encoded.Statement (.illegalF n) :=
  Encoded.of_nibble rfl (opcodeNibble_append _ _) rfl rfl

end Sys2Proof.Laws
end

