-- ==== Sys2Proof/Tests/Slice0.lean ====
section
/-! SUPPORT. The package's own tests. Expected results come from spec/95_test_vectors.md (the vector's name is given) or, for
encodings, from the formats of 30_encoding.md R50, R53 written out by hand. The last part shows for each statement with
hypotheses a concrete state and operands that meet them. -/
namespace Sys2Proof.Tests
open Sys2Proof.Machine

/-! ### Helpers -/

/-- The vectors' start state: RUNNING = 1, PC = 010, everything else as at reset. -/
def start (acc : Byte) (mem : Memory) : State := (((State.reset.setAcc acc).setPc 0x010).setRunning true).setMem mem

/-- The state after one step. -/
def after (s : State) : State :=
  match step s with
  | .next t => t
  | .fault _ | .refused _ => s

/-- The state of Halted(error) from `s` (60_exceptions.md R161). -/
def faulted (s : State) : State := (((s.setStack []).setPc 0).setError true).setRunning false

/-- The source text with these lines. -/
def lines (ls : List String) : List Line := ls.map String.toList

/-! ### Decoding: one word for each constructor, written out from R50 and R53 -/

theorem test_decode_jumps : decode [0b00001010, 0b10111100] = .ok (.jp 0xABC) [] ∧
    decode [0b00010000, 0b01010000] = .ok (.jz 0x050) [] ∧ decode [0b00101010, 0b10111100] = .ok (.jn 0xABC) [] := by decide

theorem test_decode_arithmetic : decode [0b01000000, 0b00100000] = .ok (.add 0x020) [] ∧
    decode [0b01010101, 0b00000001] = .ok (.sub 0x501) [] ∧ decode [0b01101111, 0b11111111] = .ok (.mult 0xFFF) [] ∧
    decode [0b01111000, 0b00000000] = .ok (.div 0x800) [] := by decide

theorem test_decode_load_store_call : decode [0b10000000, 0b00000000] = .ok (.ld 0x000) [] ∧
    decode [0b10010001, 0b00000010] = .ok (.mm 0x102) [] ∧ decode [0b10100010, 0b00000111] = .ok (.sc 0x207) [] := by decide

theorem test_decode_one_byte : decode [0b00110010, 0xFF] = .ok (.cn 2) [0xFF] ∧ decode [0b10110000, 0xFF] = .ok (.os 0) [0xFF] ∧
    decode [0b11000001, 0xFF] = .ok (.io 1) [0xFF] := by decide

theorem test_decode_illegal : decode [0b11010000] = .ok (.illegalD 0) [] ∧ decode [0b11100101] = .ok (.illegalE 5) [] ∧
    decode [0b11111111] = .ok (.illegalF 15) [] := by decide

/-- R51: a size-2 first byte with nothing after it, and no byte at all, are rejected by name. -/
theorem test_decode_rejects : decode [0x8F] = .rejected .secondByteMissing ∧ decode [] = .rejected .noBytes := by decide

/-- The opcode table's numbering: 8-bit rows are the byte, 16-bit rows the byte pair, high byte first (R33). -/
theorem test_decode_table_word : decodeTableWord 16 0xA207 = some (.sc 0x207) ∧ decodeTableWord 8 0x32 = some (.cn 2) ∧
    decodeTableWord 16 0x0ABC = some (.jp 0xABC) ∧ decodeTableWord 8 0xD7 = some (.illegalD 7) := by decide

/-- R52: every bit of both fields reaches the operand. -/
theorem test_decode_all_bits : decode [0x8F, 0xFF] = .ok (.ld 0xFFF) [] ∧ decode [0x81, 0x00] = .ok (.ld 0x100) [] ∧
    decode [0x80, 0x80] = .ok (.ld 0x080) [] ∧ decode [0xCF] = .ok (.io 0xF) [] ∧ decode [0xC8] = .ok (.io 0x8) [] := by decide

/-! ### WellFormed: the one check refuses each illegal nibble -/

theorem test_wf_refuses_illegal : (Instr.illegalD 0).wf = false ∧ (Instr.illegalE 7).wf = false ∧
    (Instr.illegalF 15).wf = false := by decide

theorem test_wf_accepts_catalog : (Instr.jp 0xFFF).wf = true ∧ (Instr.cn 0).wf = true ∧ (Instr.io 15).wf = true := by decide

/-! ### Reset and the fetched word -/

/-- 10_state.md R21: every cell reads 0xFF (the two ends shown), the rest as the table has it. -/
theorem test_reset : State.reset.mem = [] ∧ memRead State.reset 0x000 = 0xFF ∧ memRead State.reset 0xFFF = 0xFF ∧
    State.reset.pc = 0 ∧ State.reset.stack = [] ∧ State.reset.latch = false ∧ State.reset.running = false ∧
    State.reset.error = false := by decide

theorem test_withFetchWord : fetchInstr (State.reset.withFetchWord 16 0x0ABC) = .jp 0xABC ∧
    (after (State.reset.withFetchWord 16 0x0ABC)).pc = 0xABC ∧
    (after (State.reset.withFetchWord 8 0x31)).latch = true := by decide

/-! ### One step: jumps -/

/-- V-JP-1, V-JP-4 (through the pointer at 020). -/
theorem test_jp : after (start 0 [(0x010, 0x01), (0x011, 0x23)]) = (start 0 [(0x010, 0x01), (0x011, 0x23)]).setPc 0x123 ∧
    after ((start 0 [(0x010, 0x00), (0x011, 0x20), (0x020, 0x00), (0x021, 0x40)]).setLatch true) =
      (start 0 [(0x010, 0x00), (0x011, 0x20), (0x020, 0x00), (0x021, 0x40)]).setPc 0x040 := by decide

/-- V-JP-2: the second byte is fetched from 000. -/
theorem test_jp_at_top : (after ((start 0 [(0x000, 0x23), (0xFFF, 0x01)]).setPc 0xFFF)).pc = 0x123 := by decide

/-- V-JZ-1, V-JZ-3. -/
theorem test_jz : (after (start 0x00 [(0x010, 0x10), (0x011, 0x50)])).pc = 0x050 ∧
    (after (start 0x80 [(0x010, 0x10), (0x011, 0x50)])).pc = 0x012 := by decide

/-- V-JZ-5, V-JZ-6: the pointer's high nibble is ignored; a jump not taken clears the latch. -/
theorem test_jz_latch :
    after ((start 0 [(0x010, 0x10), (0x011, 0x50), (0x050, 0xF1), (0x051, 0x23)]).setLatch true) =
      (start 0 [(0x010, 0x10), (0x011, 0x50), (0x050, 0xF1), (0x051, 0x23)]).setPc 0x123 ∧
    after ((start 1 [(0x010, 0x10), (0x011, 0x50), (0x050, 0xF1), (0x051, 0x23)]).setLatch true) =
      (start 1 [(0x010, 0x10), (0x011, 0x50), (0x050, 0xF1), (0x051, 0x23)]).setPc 0x012 := by decide

/-- V-JN-1, V-JN-3, V-JN-4. -/
theorem test_jn : (after (start 0x80 [(0x010, 0x2A), (0x011, 0xBC)])).pc = 0xABC ∧
    (after (start 0x7F [(0x010, 0x2A), (0x011, 0xBC)])).pc = 0x012 ∧
    (after (start 0x00 [(0x010, 0x2A), (0x011, 0xBC)])).pc = 0x012 := by decide

/-- V-JN-5, V-JN-6. -/
theorem test_jn_latch : (after ((start 0x7F [(0x010, 0x2A), (0x011, 0xBC)]).setLatch true)).latch = false ∧
    (after ((start 0x80 [(0x010, 0x2A), (0x011, 0xBC), (0xABC, 0x0F), (0xABD, 0xFF)]).setLatch true)).pc = 0xFFF := by decide

/-! ### One step: CN and the illegal nibbles -/

/-- V-CN-2: a halt keeps STACK and LATCH. -/
theorem test_cn_halt : after (((start 0 [(0x010, 0x30)]).setStack [0x100]).setLatch true) =
    (((start 0 [(0x010, 0x30)]).setStack [0x100]).setLatch true).setRunning false := by decide

/-- V-CN-3, V-CN-4, V-DEC-5. -/
theorem test_cn_arm : after (start 0 [(0x010, 0x31)]) = ((start 0 [(0x010, 0x31)]).setLatch true).setPc 0x011 ∧
    (after ((start 0 [(0x010, 0x3F)]).setLatch true)).latch = true ∧
    (after ((start 0 [(0xFFF, 0x31)]).setPc 0xFFF)).pc = 0x000 := by decide

/-- V-DEC-1, V-DEC-2, V-DEC-3. -/
theorem test_illegal :
    after (((start 7 [(0x010, 0xD0)]).setStack [1]).setLatch true) = faulted (((start 7 [(0x010, 0xD0)]).setStack [1]).setLatch true) ∧
    after (start 0 [(0x010, 0xE5)]) = faulted (start 0 [(0x010, 0xE5)]) ∧
    after ((start 0 []).setPc 0x500) = faulted ((start 0 []).setPc 0x500) := by decide

/-! ### One step: arithmetic -/

/-- S2, V-AR-1. -/
theorem test_add : after (start 0x7F [(0x010, 0x40), (0x011, 0x20), (0x020, 0x01)]) =
      ((start 0x7F [(0x010, 0x40), (0x011, 0x20), (0x020, 0x01)]).setAcc 0x80).setPc 0x012 ∧
    after ((start 4 [(0x010, 0x40), (0x011, 0x20), (0x020, 0x00), (0x021, 0x40), (0x040, 0x03)]).setLatch true) =
      ((start 4 [(0x010, 0x40), (0x011, 0x20), (0x020, 0x00), (0x021, 0x40), (0x040, 0x03)]).setAcc 7).setPc 0x012 := by decide

/-- V-AR-3 (an unwritten cell is -1) and the table's row 05, FD. -/
theorem test_sub : (after (start 0x10 [(0x010, 0x55), (0x011, 0x00)])).acc = 0x11 ∧
    (after (start 0x05 [(0x010, 0x50), (0x011, 0x20), (0x020, 0xFD)])).acc = 0x08 := by decide

/-- The table's rows 05, FD and 7F, 7F and 80, FF. -/
theorem test_mult : (after (start 0x05 [(0x010, 0x60), (0x011, 0x20), (0x020, 0xFD)])).acc = 0xF1 ∧
    (after (start 0x7F [(0x010, 0x60), (0x011, 0x20), (0x020, 0x7F)])).acc = 0x01 ∧
    (after (start 0x80 [(0x010, 0x60), (0x011, 0x20), (0x020, 0xFF)])).acc = 0x80 := by decide

/-- The table's rows on which both roundings agree: F9, FE and 80, FF and 80, 02; and V-AR-5. -/
theorem test_div : (after (start 0xF9 [(0x010, 0x70), (0x011, 0x20), (0x020, 0xFE)])).acc = 0x03 ∧
    (after (start 0x80 [(0x010, 0x70), (0x011, 0x20), (0x020, 0xFF)])).acc = 0x80 ∧
    (after (start 0x80 [(0x010, 0x70), (0x011, 0x20), (0x020, 0x02)])).acc = 0xC0 ∧
    after (((start 4 [(0x010, 0x70), (0x011, 0x20), (0x020, 0x00), (0x021, 0x40), (0x040, 0x00)]).setLatch true).setStack [5]) =
      faulted (start 4 [(0x010, 0x70), (0x011, 0x20), (0x020, 0x00), (0x021, 0x40), (0x040, 0x00)]) := by decide

/-- The table's starred rows, both columns: F9, 02 and 07, FE and 01, 80 and 9C, 07. -/
theorem test_div_rounding : trunc8 (quotRounded .trunc (-7) 2) = 0xFD ∧ trunc8 (quotRounded .floor (-7) 2) = 0xFC ∧
    trunc8 (quotRounded .trunc 7 (-2)) = 0xFD ∧ trunc8 (quotRounded .floor 7 (-2)) = 0xFC ∧
    trunc8 (quotRounded .trunc 1 (-128)) = 0x00 ∧ trunc8 (quotRounded .floor 1 (-128)) = 0xFF ∧
    trunc8 (quotRounded .trunc (-100) 7) = 0xF2 ∧ trunc8 (quotRounded .floor (-100) 7) = 0xF1 := by decide

/-! ### One step: load, store, subroutine, devices -/

/-- V-LD-2, V-LD-3, V-LD-4. -/
theorem test_ld : (after (start 0 [(0x010, 0x80), (0x011, 0x10)])).acc = 0x80 ∧
    (after (start 0 [(0x010, 0x85), (0x011, 0x00)])).acc = 0xFF ∧
    after ((start 0 [(0x010, 0x80), (0x011, 0x20), (0x020, 0x03), (0x021, 0x00), (0x300, 0x42)]).setLatch true) =
      ((start 0 [(0x010, 0x80), (0x011, 0x20), (0x020, 0x03), (0x021, 0x00), (0x300, 0x42)]).setAcc 0x42).setPc 0x012 := by decide

/-- V-RES-3's second step: the pointer's second cell wraps to 000 and its high nibble is ignored. -/
theorem test_ld_pointer_wraps :
    (after ((start 0 [(0x000, 0x20), (0x010, 0x8F), (0x011, 0xFF), (0x020, 0x77), (0xFFF, 0xA0)]).setLatch true)).acc = 0x77 := by
  decide

/-- V-MM-2, V-MM-4, V-MM-5. -/
theorem test_mm : (after (start 0x55 [(0x010, 0x90), (0x011, 0x11)])).mem = [(0x010, 0x90), (0x011, 0x55)] ∧
    (after ((start 0x5A [(0x010, 0x90), (0x011, 0x20), (0x020, 0x03), (0x021, 0x00)]).setLatch true)).mem =
      [(0x010, 0x90), (0x011, 0x20), (0x020, 0x03), (0x021, 0x00), (0x300, 0x5A)] ∧
    (after ((start 0x77 [(0x000, 0x00), (0xFFF, 0x91)]).setPc 0xFFF)).pc = 0x001 := by decide

/-- A store of 0xFF, what an unlisted cell reads as, keeps the list canonical. -/
theorem test_mm_fill_value : (after (start 0xFF [(0x010, 0x90), (0x011, 0x20), (0x020, 0x03)])).mem = [(0x010, 0x90), (0x011, 0x20)] := by
  decide

/-- V-SC-2, V-SC-4. -/
theorem test_sc : after ((start 0 [(0x010, 0xA1), (0x011, 0x00)]).setStack [0x203]) =
      ((start 0 [(0x010, 0xA1), (0x011, 0x00)]).setStack [0x010, 0x203]).setPc 0x100 ∧
    (after ((start 0 [(0x000, 0x00), (0xFFF, 0xA1)]).setPc 0xFFF)).stack = [0xFFF] := by decide

/-- V-SC-3. -/
theorem test_sc_indirect : after ((start 0 [(0x010, 0xA0), (0x011, 0x20), (0x020, 0x00), (0x021, 0x40)]).setLatch true) =
    ((start 0 [(0x010, 0xA0), (0x011, 0x20), (0x020, 0x00), (0x021, 0x40)]).setStack [0x010]).setPc 0x040 := by decide

/-- V-OS-2 (the stack's top is the list's head), V-OS-5, V-OS-6. -/
theorem test_os_return : after ((start 0 [(0x010, 0xB0)]).setStack [0x300, 0x203]) =
      ((start 0 [(0x010, 0xB0)]).setStack [0x203]).setPc 0x302 ∧
    (after ((start 0 [(0x010, 0xB0)]).setStack [0xFFE])).pc = 0x000 ∧
    (after (((start 0 [(0x010, 0xB0)]).setStack [0x203]).setLatch true)).latch = false := by decide

/-- V-OS-7, V-OS-8. -/
theorem test_os_stops : after ((start 0 [(0x010, 0xB0)]).setLatch true) = (start 0 [(0x010, 0xB0)]).setRunning false ∧
    after (((start 0x80 [(0x010, 0xB3)]).setStack [0x200, 0x100]).setLatch true) = faulted (start 0x80 [(0x010, 0xB3)]) := by decide

/-- V-IO-2, V-IO-4, V-IO-5. -/
theorem test_io_read :
    after ((start 5 [(0x010, 0xC0)]).setInput ⟨[0x80, 0x01], 0⟩) =
      (((start 5 [(0x010, 0xC0)]).setInput ⟨[0x80, 0x01], 1⟩).setAcc 0x80).setPc 0x011 ∧
    (after (((start 9 [(0x010, 0xCE)]).setInput ⟨[0x00], 0⟩).setLatch true)).latch = true ∧
    after (((start 0x33 [(0x010, 0xC0)]).setStack [0x100]).setLatch true) =
      faulted ((start 0x33 [(0x010, 0xC0)]).setLatch true) := by decide

/-- V-IO-7, V-IO-8. -/
theorem test_io_write : after (start 0xFF [(0x010, 0xCF)]) = ((start 0xFF [(0x010, 0xCF)]).setOutput [0xFF]).setPc 0x011 ∧
    (after (start 0x80 [(0x010, 0xC1)])).output = [0x80] := by decide

/-! ### Host commands -/

/-- V-HOST-2, V-HOST-3 (wraps past FFF; a wrong checksum is loaded all the same). -/
theorem test_host_load : loadObject [0x00, 0x00, 0x04, 0x05, 0x80, 0x00, 0xB0, 0x39] [] =
      some ([(0x000, 0x05), (0x001, 0x80), (0x002, 0x00), (0x003, 0xB0)], true) ∧
    loadObject [0x0F, 0xFE, 0x04, 0x11, 0x22, 0x33, 0x44, 0x00] [] =
      some ([(0x000, 0x33), (0x001, 0x44), (0xFFE, 0x11), (0xFFF, 0x22)], false) := by decide

/-- V-HOST-4 (address field F200), V-HOST-5 (refused), V-HOST-6 (empty payload). -/
theorem test_host_load_edges : loadObject [0xF2, 0x00, 0x01, 0xAB, 0x9E] [] = some ([(0x200, 0xAB)], true) ∧
    loadObject [0x00, 0x00, 0x04, 0x05, 0x80, 0x39] [] = none ∧ loadObject [0x01, 0x23, 0x00, 0x24] [] = some ([], true) := by decide

/-- V-HOST-7, V-HOST-8: the start address is masked and ERROR is cleared. -/
theorem test_host_run : (after ((State.reset.setError true).setHost [.run 0x1234 [0x15]])).pc = 0x234 ∧
    (after ((State.reset.setError true).setHost [.run 0x1234 [0x15]])).error = false ∧
    (after ((State.reset.setError true).setHost [.run 0x1234 [0x15]])).running = true ∧
    (after ((State.reset.setError true).setHost [.run 0x1234 [0x15]])).input = ⟨[0x15], 0⟩ := by decide

/-- 70 R183: the address is reduced modulo 4096 and the value to its low byte. -/
theorem test_host_poke_peek : (after (State.reset.setHost [.poke 0x1020 0x1AB])).mem = [(0x020, 0xAB)] ∧
    (after (State.reset.setHost [.peek 0x1020])).replies = [.peeked 0xFF] := by decide

/-- V-HOST-1. -/
theorem test_host_power_on : (after (((start 1 [(0x010, 0x01)]).setRunning false).setHost [.powerOn 0x5A])).toEngine =
    Engine.powerOn 0x5A := by decide

/-! ### The SRU -/

/-- S1(b), V-SRU-2, V-SRU-3. -/
theorem test_sru_labels :
    assemble (lines [" @ 000", "N1 K 05", " LD N1", " OS 0", " #"]) = .object [0x00, 0x00, 0x04, 0x05, 0x80, 0x00, 0xB0, 0x39] ∧
    assemble (lines [" @ 0a0", "loop", " ld Loop", " jp LOOP", " #"]) = .object [0x00, 0xA0, 0x04, 0x80, 0xA0, 0x00, 0xA0, 0x64] ∧
    assemble (lines [" @ 010", " JP END1", " CN 0", "END1", " OS 0", " #"]) =
      .object [0x00, 0x10, 0x04, 0x00, 0x13, 0x30, 0xB0, 0x07] := by decide

/-- V-SRU-4, V-SRU-7, V-SRU-9, V-SRU-10. -/
theorem test_sru_literals :
    assemble (lines [" @ 000", " JP 1234", " CN 1F", " IO 1", " OS 0", " #"]) =
      .object [0x00, 0x00, 0x05, 0x02, 0x34, 0x3F, 0xC1, 0xB0, 0xEB] ∧
    assemble (lines [" @ 100", " LD X", " @ 200", "X K 07", " #"]) = .object [0x01, 0x00, 0x03, 0x82, 0x00, 0x07, 0x8D] ∧
    assemble (lines [" @ 105", "ABC", " JP ABC", " JP ABD", " LD 1", " CN ABC", " #"]) =
      .object [0x01, 0x05, 0x07, 0x01, 0x05, 0x0A, 0xBD, 0x80, 0x01, 0x35, 0x90] ∧
    assemble (lines [" @ 1FC0", " CN 0", " #"]) = .object [0x0F, 0xC0, 0x01, 0x30, 0x00] := by decide

/-- V-SRU-5, V-SRU-6, V-SRU-8: nothing after End is examined, the end of the text acts as End, the payload may be empty. -/
theorem test_sru_ends : assemble (lines [" @ 000", " CN 0", " #", " garbage here", "LD"]) = .object [0x00, 0x00, 0x01, 0x30, 0x31] ∧
    assemble (lines [" @ 000", " CN 0"]) = .object [0x00, 0x00, 0x01, 0x30, 0x31] ∧
    assemble (lines [" @ 123", " #"]) = .object [0x01, 0x23, 0x00, 0x24] := by decide

/-- V-ERR-1 to V-ERR-6. -/
theorem test_sru_refuses_names : assemble (lines ["@ 000", "N1 K 05", " LD N1", " OS 0", "#"]) = .error .reservedName 1 ∧
    assemble (lines [" @ 000", "add", " #"]) = .error .reservedName 2 ∧
    assemble (lines [" @ 000", "K K 05", " #"]) = .error .reservedName 2 ∧
    assemble (lines [" @ 000", "LOOP LD X", " #"]) = .error .badLabelDirective 2 ∧
    assemble (lines [" @ 000", " NOP 0", " #"]) = .error .unknownMnemonic 2 ∧
    assemble (lines [" @ 000", " K 05", " #"]) = .error .unknownMnemonic 2 := by decide

/-- V-ERR-7 to V-ERR-10, V-ERR-17; and the source with no line (log 9). -/
theorem test_sru_refuses_origins : assemble (lines ["N1 K 05", " @ 000", " #"]) = .error .missingOrigin 1 ∧
    assemble (lines ["", " @ 000", " #"]) = .error .missingOrigin 1 ∧ assemble [] = .error .missingOrigin 1 ∧
    assemble (lines [" LD 0", " #"]) = .error .missingOrigin 1 ∧ assemble (lines [" @ XYZ", " #"]) = .error .badOrigin 1 ∧
    assemble (lines [" LD 0", " FOO 1", " #"]) = .error .unknownMnemonic 2 := by decide

/-- V-ERR-11 to V-ERR-16. -/
theorem test_sru_refuses_operands : assemble (lines [" @ 000", " LD NOWHERE", " #"]) = .error .unresolvedOperand 2 ∧
    assemble (lines [" @ 000", " CN", " #"]) = .error .unresolvedOperand 2 ∧
    assemble (lines [" @ 000", "A", "A", " #"]) = .error .duplicateLabel 3 ∧
    assemble (lines [" @ 000", "N1 K", " #"]) = .error .badConstant 2 ∧
    assemble (lines [" @ 000", "N1 K 100", " #"]) = .error .badConstant 2 ∧
    assemble (lines [" @ 000", " LD 0 1", " #"]) = .error .extraToken 2 := by decide

/-- 46 R129 at its boundary: 255 bytes fit, 256 do not, and the error names the text's last line (log 21). -/
theorem test_sru_object_length :
    emitHeader { (Sru.start (lines [" @ 000", " #"])).beginPass2 with count := 255 } =
      .next { (Sru.start (lines [" @ 000", " #"])).beginPass2 with count := 255, line := 1, obj := [0, 0, 255], chk := 255 } ∧
    emitHeader { (Sru.start (lines [" @ 000", " #"])).beginPass2 with count := 256 } = .error .objectTooLong 2 := by decide

/-- The agent's first and last steps on S3's source: the result is handed to the host and the registers are reset. -/
theorem test_sru_agent :
    (after (State.reset.setHost [.assemble (lines [" @ 123", " #"])])).sru = Sru.start (lines [" @ 123", " #"]) ∧
    after (State.reset.setSru { Sru.idle with phase := .pass2, source := lines [" @ 123", " #"], line := 1, obj := [1, 0x23, 0], chk := 0x24 }) =
      State.reset.setReplies [.assembled (.object [0x01, 0x23, 0x00, 0x24])] := by decide

/-- 45_io.md R103: two upper-case digits out, either case in; a malformed text is refused. -/
theorem test_token_text : renderTokens [' '] [0x2A, 0x05] = "2A 05 ".toList ∧ parseTokens [' '] "2a 05".toList = some [0x2A, 0x05] ∧
    parseTokens [' '] "2A 5".toList = none ∧ parseTokens [' '] "2G".toList = none := by decide

/-! ### Witnesses: for each statement with hypotheses, a state and operands that meet them, each clause at a boundary -/

theorem test_witness_EncodeOfDecodeGivesBytesBack : decode [0xA2, 0x07, 0x99] = .ok (.sc 0x207) [0x99] ∧
    decode [0xD7, 0x99] = .ok (.illegalD 7) [0x99] := by decide

theorem test_witness_LengthDecidedByFirstNibble : (0x30 : Byte).toNat / 16 ∈ [0x3, 0xB, 0xC] ∧
    (0xCF : Byte).toNat / 16 ∈ [0x3, 0xB, 0xC] ∧
    (0x00 : Byte).toNat / 16 ∈ [0x0, 0x1, 0x2, 0x4, 0x5, 0x6, 0x7, 0x8, 0x9, 0xA] ∧
    (0xAF : Byte).toNat / 16 ∈ [0x0, 0x1, 0x2, 0x4, 0x5, 0x6, 0x7, 0x8, 0x9, 0xA] ∧
    (0xD0 : Byte).toNat / 16 ∈ [0xD, 0xE, 0xF] ∧ (0xFF : Byte).toNat / 16 ∈ [0xD, 0xE, 0xF] := by decide

/-- Its second part: two states that differ elsewhere agree at PC and PC + 1, here FFF and 000. -/
theorem test_witness_LengthDecidedByFirstNibble_fetch :
    ((start 1 [(0x000, 5), (0xFFF, 0x80)]).setPc 0xFFF).pc = ((start 2 [(0x000, 5), (0x300, 1), (0xFFF, 0x80)]).setPc 0xFFF).pc ∧
    memRead (start 1 [(0x000, 5), (0xFFF, 0x80)]) 0xFFF = memRead (start 2 [(0x000, 5), (0x300, 1), (0xFFF, 0x80)]) 0xFFF ∧
    memRead (start 1 [(0x000, 5), (0xFFF, 0x80)]) (0xFFF + 1) =
      memRead (start 2 [(0x000, 5), (0x300, 1), (0xFFF, 0x80)]) (0xFFF + 1) := by decide

theorem test_witness_OperandFieldsAssembled : decode [0x8F, 0xFF] = .ok (.ld 0xFFF) [] ∧ (Instr.ld 0xFFF).op12? = some 0xFFF ∧
    (Instr.ld 0xFFF).wf = true ∧ decode [0xCF, 0x00] = .ok (.io 0xF) [0x00] ∧ (Instr.io 0xF).sub4? = some 0xF := by decide

theorem test_witness_EmittedInstructionBytesDecode : (⟨.IO, ['I', 'O'], 0xC, 1⟩ : CatalogRow) ∈ catalog ∧
    (⟨.JP, ['J', 'P'], 0x0, 2⟩ : CatalogRow) ∈ catalog := by decide

theorem test_witness_StepRunsTheDecodedInstr : (start 0 [(0x010, 0x8F), (0x011, 0xFF)]).running = true ∧
    decode [memRead (start 0 [(0x010, 0x8F), (0x011, 0xFF)]) 0x010, memRead (start 0 [(0x010, 0x8F), (0x011, 0xFF)]) (0x010 + 1)] =
      .ok (.ld 0xFFF) [] := by decide

theorem test_witness_StoppedEngineDoesNothing : State.reset.running = false ∧ State.reset.sru.phase = .idle ∧
    State.reset.host = [] := by decide

theorem test_witness_StepKeepsInvariant : MachineInv (start 0 [(0x010, 0x31)]) ∧
    step (start 0 [(0x010, 0x31)]) = .next (((start 0 [(0x010, 0x31)]).setLatch true).setPc 0x011) := by
  refine ⟨⟨rfl, by decide, ?_, fun _ => rfl, fun _ => rfl, by decide, ?_, rfl, fun _ => rfl, by decide⟩, rfl⟩
  · intro h; exact absurd h (by decide)
  · intro e he; exact absurd he List.not_mem_nil

theorem test_witness_EngineStepDependsOnEngineAlone : (start 0 []).running = true ∧
    ((start 0 []).setHost [.observe]).toEngine = (start 0 []).toEngine ∧ (start 0 []).setHost [.observe] ≠ start 0 [] := by decide

theorem test_witness_SruStepLeavesEngineAlone : (State.reset.setSru (Sru.start [])).running = false ∧
    (State.reset.setSru (Sru.start [])).sru.phase ≠ .idle := by decide

theorem test_witness_ResolveGivesTheSpecAddress : (start 0 []).latch = false ∧ ((start 0 []).setLatch true).latch = true ∧
    (resolve 0xFFF (start 0 [])).1 = 0xFFF ∧
    (resolve 0xFFF ((start 0 [(0x000, 0x20), (0xFFF, 0xA0)]).setLatch true)).1 = 0x020 := by decide

theorem test_witness_CNHaltsOrArmsLatch : (0 : Nibble).toNat = 0 ∧ (1 : Nibble).toNat ≠ 0 ∧ (0xF : Nibble).toNat ≠ 0 := by decide

/-- A divisor above zero and one below it; and DIV_ROUND, whichever it is, meets the one clause or the other. -/
theorem test_witness_DivGivesRoundedQuotient :
    0 < (operandOf (start 0xF9 [(0x020, 0x02)]) 0x020).toInt ∧ (operandOf (start 0x01 [(0x020, 0x80)]) 0x020).toInt < 0 ∧
    (operandOf (start 0x01 [(0x020, 0x80)]) 0x020).toNat ≠ 0 ∧ (Config.divRound = .trunc ∨ Config.divRound = .floor) := by
  refine ⟨by decide, by decide, by decide, ?_⟩
  cases Config.divRound
  · exact .inl rfl
  · exact .inr rfl

/-- 80 by FF, exactly 128; and F9 by FE, both negative. -/
theorem test_witness_DivFixedWhereRoundingsAgree : (operandOf (start 0x80 [(0x020, 0xFF)]) 0x020).toNat ≠ 0 ∧
    (128 : Int) * (operandOf (start 0x80 [(0x020, 0xFF)]) 0x020).toInt = (start 0x80 [(0x020, 0xFF)]).acc.toInt ∧
    (operandOf (start 0xF9 [(0x020, 0xFE)]) 0x020).toNat ≠ 0 ∧
    ((start 0xF9 [(0x020, 0xFE)]).acc.toInt < 0 ↔ (operandOf (start 0xF9 [(0x020, 0xFE)]) 0x020).toInt < 0) := by decide

theorem test_witness_DivByZeroTakesFault : (operandOf (start 0 [(0x040, 0)]) 0x040).toNat = 0 := by decide

theorem test_witness_MMStoresTheAccumulator : Memory.wf (start 0x5A [(0x020, 0x03), (0xFFF, 0x00)]).mem = true ∧
    (resolve 0x020 ((start 0x5A [(0x020, 0x03), (0x021, 0x00)]).setLatch true)).1 = 0x300 := by decide

theorem test_witness_OSZeroReturns : ((start 0 []).setStack [0xFFF, 0x203]).stack = 0xFFF :: [0x203] := by decide

theorem test_witness_OSZeroOnEmptyStackHalts : (start 0 []).stack = [] := by decide

theorem test_witness_OSNonzeroTakesFault : (1 : Nibble).toNat ≠ 0 ∧ (0xF : Nibble).toNat ≠ 0 := by decide

theorem test_witness_IOEvenReadsOneToken : (0 : Nibble).toNat % 2 = 0 ∧ (0xE : Nibble).toNat % 2 = 0 ∧
    ((start 0 []).setInput ⟨[0x15, 0x16], 1⟩).input.tokens[((start 0 []).setInput ⟨[0x15, 0x16], 1⟩).input.pos]? = some 0x16 := by
  decide

theorem test_witness_IOEvenWithoutTokenTakesFault : (0 : Nibble).toNat % 2 = 0 ∧ (0xE : Nibble).toNat % 2 = 0 ∧
    ((start 0 []).setInput ⟨[0x15], 1⟩).input.tokens.length ≤ ((start 0 []).setInput ⟨[0x15], 1⟩).input.pos := by decide

theorem test_witness_IOOddWritesAccumulator : (1 : Nibble).toNat % 2 = 1 ∧ (0xF : Nibble).toNat % 2 = 1 := by decide

theorem test_witness_IllegalNibbleTakesFault : Instr.illegalF 0xF = .illegalD 0xF ∨ Instr.illegalF 0xF = .illegalE 0xF ∨
    Instr.illegalF 0xF = .illegalF 0xF := by decide

theorem test_witness_ErrorSetExactlyByTheFourFaults : (start 0 []).error = false ∧
    exec (.os 0xF) (start 0 []) = .next (faulted (start 0 [])) ∧ faultRaised (.os 0xF) (start 0 []) = some .osError :=
  ⟨rfl, rfl, rfl⟩

theorem test_witness_RunEndsExactlyByHaltOrFault : (start 0 []).running = true ∧
    exec (.os 0) (start 0 []) = .next ((start 0 []).setRunning false) ∧ haltsNormally (.os 0) (start 0 []) :=
  ⟨rfl, rfl, .inr ⟨rfl, rfl⟩⟩

theorem test_witness_LatchLife : (Instr.ld 0xFFF).op12?.isSome = true ∧
    exec (.ld 0xFFF) (start 0 []) = .next (((start 0 []).setAcc 0xFF).setPc 0x012) ∧
    exec (.os 0xF) (start 0 []) = .next (faulted (start 0 [])) ∧
    exec (.cn 1) (start 0 []) = .next (((start 0 []).setLatch true).setPc 0x011) ∧
    exec (.io 0xF) (start 5 []) = .next (((start 5 []).setOutput [5]).setPc 0x011) := ⟨rfl, rfl, rfl, rfl, rfl⟩

theorem test_witness_ProgramCounterTable : exec (.jz 0xFFF) (start 0 []) = .next ((start 0 []).setPc 0xFFF) ∧
    exec (.jz 0xFFF) ((start 1 []).setPc 0xFFE) = .next ((start 1 []).setPc 0x000) := ⟨rfl, rfl⟩

theorem test_witness_WritersOfMemoryAndAccumulator :
    exec (.io 1) (start 5 []) = .next (((start 5 []).setOutput [5]).setPc 0x011) ∧
    (∀ a, Instr.io 1 ≠ .mm a) ∧
    (∀ a, Instr.io 1 ≠ .add a ∧ Instr.io 1 ≠ .sub a ∧ Instr.io 1 ≠ .mult a ∧ Instr.io 1 ≠ .div a ∧ Instr.io 1 ≠ .ld a) ∧
    (∀ n, Instr.io 1 = .io n → n.toNat % 2 = 1) := by
  refine ⟨rfl, by simp, by simp, fun n h => ?_⟩
  cases h; rfl

theorem test_witness_StackChangedOnlyByCallReturnFault :
    exec (.sc 0x100) (start 0 []) = .next (((start 0 []).setStack [0x010]).setPc 0x100) := rfl

theorem test_witness_DevicesChangedOnlyByIO :
    exec (.io 0) ((start 0 []).setInput ⟨[0x15], 0⟩) = .next (((start 0x15 []).setInput ⟨[0x15], 1⟩).setPc 0x011) := rfl

theorem test_witness_ErrorAndOutputNeverRead :
    exec (.jn 0xFFF) (start 0x80 []) = .next ((start 0x80 []).setPc 0xFFF) := rfl

theorem test_witness_ReturnResumesAfterTheCall :
    exec (.sc 0x100) (start 0 []) = .next (((start 0 []).setStack [0x010]).setPc 0x100) ∧
    ((start 7 [(0x100, 0xB0)]).setStack [0x010]).stack = (((start 0 []).setStack [0x010]).setPc 0x100).stack := ⟨rfl, rfl⟩

theorem test_witness_StoreThenLoadReturnsTheByte : Memory.wf (start 0xAB [(0x020, 0x01)]).mem = true ∧
    exec (.mm 0x040) (start 0xAB [(0x020, 0x01)]) =
      .next (((start 0xAB [(0x020, 0x01)]).setMem [(0x020, 0x01), (0x040, 0xAB)]).setPc 0x012) := ⟨rfl, rfl⟩

/-- V-MM-3: the store at 012 is the first byte of what runs next. -/
theorem test_witness_StoreIsSeenByTheNextFetch : Memory.wf (start 0x30 [(0x010, 0x90), (0x011, 0x12)]).mem = true ∧
    (start 0x30 [(0x010, 0x90), (0x011, 0x12)]).running = true ∧
    exec (.mm 0x012) (start 0x30 [(0x010, 0x90), (0x011, 0x12)]) =
      .next ((start 0x30 [(0x010, 0x90), (0x011, 0x12), (0x012, 0x30)]).setPc 0x012) ∧
    (resolve 0x012 (start 0x30 [(0x010, 0x90), (0x011, 0x12)])).1 =
      ((start 0x30 [(0x010, 0x90), (0x011, 0x12), (0x012, 0x30)]).setPc 0x012).pc ∧
    decode [0x30, memRead (start 0x30 [(0x010, 0x90), (0x011, 0x12)]) (0x012 + 1)] = .ok (.cn 0) [0xFF] :=
  ⟨rfl, rfl, rfl, rfl, rfl⟩

/-- Its second clause, across the top of memory: the store at 000 is the second byte of the LD at FFF. -/
theorem test_witness_StoreIsSeenByTheNextFetch_second :
    exec (.mm 0x000) (start 0x45 [(0xFFF, 0x80)]) = .next ((start 0x45 [(0x000, 0x45), (0xFFF, 0x80)]).setPc 0x012) ∧
    sameMemory ((start 0x45 [(0x000, 0x45), (0xFFF, 0x80)]).setPc 0x012) ((start 7 [(0x000, 0x45), (0xFFF, 0x80)]).setPc 0xFFF) ∧
    ((start 7 [(0x000, 0x45), (0xFFF, 0x80)]).setPc 0xFFF).running = true ∧
    (resolve 0x000 (start 0x45 [(0xFFF, 0x80)])).1 = ((start 7 [(0x000, 0x45), (0xFFF, 0x80)]).setPc 0xFFF).pc + 1 ∧
    decode [memRead (start 0x45 [(0xFFF, 0x80)]) 0xFFF, 0x45] = .ok (.ld 0x045) [] :=
  ⟨rfl, fun _ => rfl, rfl, rfl, rfl⟩

/-- V-JP-3. -/
theorem test_witness_JumpToItselfNeverEnds : (start 0 [(0x010, 0x00), (0x011, 0x10)]).running = true ∧
    (start 0 [(0x010, 0x00), (0x011, 0x10)]).latch = false ∧
    fetchInstr (start 0 [(0x010, 0x00), (0x011, 0x10)]) = .jp 0x010 := by decide

theorem test_witness_CallToItselfGrowsStackForEver : (start 0 [(0x010, 0xA0), (0x011, 0x10)]).running = true ∧
    (start 0 [(0x010, 0xA0), (0x011, 0x10)]).error = false ∧ (start 0 [(0x010, 0xA0), (0x011, 0x10)]).latch = false ∧
    fetchInstr (start 0 [(0x010, 0xA0), (0x011, 0x10)]) = .sc 0x010 := by decide

theorem test_witness_CanonicalMemoriesAreEqualData :
    Memory.wf (Memory.store (Memory.store [] 0xFFF 1) 0x000 2) = true ∧ Memory.wf [(0x000, 2), (0xFFF, 1)] = true ∧
    (∀ a : Addr, Memory.lookup (Memory.store (Memory.store [] 0xFFF 1) 0x000 2) a.toNat = Memory.lookup [(0x000, 2), (0xFFF, 1)] a.toNat) :=
  ⟨rfl, rfl, fun _ => rfl⟩

/-- The stopped machine with an idle SRU and the command at the head of the list: the hypotheses of the host's statements. -/
theorem test_witness_host_commands (c : HostCommand) : (State.reset.setHost [c]).running = false ∧
    (State.reset.setHost [c]).sru.phase = .idle ∧ Memory.wf (State.reset.setHost [c]).mem = true ∧
    (State.reset.setHost [c]).host = c :: [] := ⟨rfl, rfl, rfl, rfl⟩

theorem test_witness_PowerOnGivesTheIdleState : (State.reset.setHost [.powerOn 0x5A]).running = false ∧
    (State.reset.setHost [.powerOn 0x5A]).sru.phase = .idle ∧
    (State.reset.setHost [.powerOn 0x5A]).host = .powerOn 0x5A :: [] := by decide

theorem test_witness_RunStartsTheEngine : (State.reset.setHost [.run 0x1FFF [0x15]]).running = false ∧
    (State.reset.setHost [.run 0x1FFF [0x15]]).sru.phase = .idle ∧
    (State.reset.setHost [.run 0x1FFF [0x15]]).host = .run 0x1FFF [0x15] :: [] := by decide

/-- V-HOST-3: its four bytes land at FFE, FFF, 000, 001; the cell at 002 is outside. -/
theorem test_witness_LoadPlacesThePayload :
    (State.reset.setHost [.load (0x0F :: 0xFE :: 4 :: [0x11, 0x22, 0x33, 0x44] ++ [0])]).running = false ∧
    (State.reset.setHost [.load (0x0F :: 0xFE :: 4 :: [0x11, 0x22, 0x33, 0x44] ++ [0])]).sru.phase = .idle ∧
    Memory.wf (State.reset.setHost [.load (0x0F :: 0xFE :: 4 :: [0x11, 0x22, 0x33, 0x44] ++ [0])]).mem = true ∧
    [(0x11 : Byte), 0x22, 0x33, 0x44].length = (4 : Byte).toNat ∧ [(0x11 : Byte), 0x22, 0x33, 0x44][3]? = some 0x44 ∧
    (∀ k < [(0x11 : Byte), 0x22, 0x33, 0x44].length, (0x002 : Addr) ≠ BitVec.ofNat 12 (256 * (0x0F : Byte).toNat + (0xFE : Byte).toNat + k)) := by
  decide

/-- V-HOST-5; and a stream of two bytes, which has no length byte. -/
theorem test_witness_LoadRefusesMalformedStream : State.reset.running = false ∧ State.reset.sru.phase = .idle ∧
    [(0x00 : Byte), 0x00, 0x04, 0x05, 0x80, 0x39].length ≠ (0x04 : Byte).toNat + 4 ∧
    [(0x00 : Byte), 0x00, 0x04, 0x05, 0x80, 0x39][2]? = some 0x04 ∧ [(0x00 : Byte), 0x00][2]? = none := by decide

theorem test_witness_PokePeekAndObserve : (State.reset.setHost [.poke 0xFFFF 0x1FF]).running = false ∧
    Memory.wf (State.reset.setHost [.poke 0xFFFF 0x1FF]).mem = true ∧
    (State.reset.setHost [.poke 0xFFFF 0x1FF]).sru.phase = .idle ∧
    (State.reset.setHost [.poke 0xFFFF 0x1FF]).host = .poke 0xFFFF 0x1FF :: [] ∧
    (State.reset.setHost [.peek 0x1000]).host = .peek 0x1000 :: [] ∧
    (State.reset.setHost [.observe]).host = .observe :: [] := by decide

/-- V-SRU-9: `ABC` is a label, `ABD` a literal; `1FFFF` a literal past 12 bits; `XYZ` neither. -/
theorem test_witness_OperandMeansLabelFirst : symLookup [(['A', 'B', 'C'], 0x105)] ['A', 'B', 'C'] = some 0x105 ∧
    symLookup [(['A', 'B', 'C'], 0x105)] ['A', 'B', 'D'] = none ∧ hexValue ['A', 'B', 'D'] = some 0xABD ∧
    symLookup [(['A', 'B', 'C'], 0x105)] "1FFFF".toList = none ∧ hexValue "1FFFF".toList = some 0x1FFFF ∧
    symLookup [(['A', 'B', 'C'], 0x105)] ['X', 'Y', 'Z'] = none ∧ hexValue ['X', 'Y', 'Z'] = none ∧
    (⟨.CN, ['C', 'N'], 0x3, 1⟩ : CatalogRow) ∈ catalog := by decide

/-- Its lines: blank, code label, Constants (missing, malformed, too large, the largest with and without a further token), End and
Origin with and without further tokens, instructions without, with one and with two operand tokens. -/
theorem test_witness_OperandMeansLabelFirst_lines : tokens " ".toList = [] ∧ tokens "x".toList = [['X']] ∧
    isLabelLine "x".toList = true ∧ tokens "a k".toList = [['A'], ['K']] ∧ isLabelLine "a k".toList = true ∧
    tokens "a k XYZ".toList = [['A'], ['K'], ['X', 'Y', 'Z']] ∧ hexValue ['X', 'Y', 'Z'] = none ∧
    hexValue ['1', '0', '0'] = some 256 ∧ tokens "a k FF 1".toList = [['A'], ['K'], ['F', 'F'], ['1']] ∧
    hexValue ['F', 'F'] = some 255 ∧ tokens " #".toList = [['#']] ∧ tokens " # 1".toList = [['#'], ['1']] ∧
    tokens " @ 0".toList = [['@'], ['0']] ∧ tokens " @ 0 1".toList = [['@'], ['0'], ['1']] ∧
    tokens " cn".toList = [['C', 'N']] ∧ tokens " cn abc".toList = [['C', 'N'], ['A', 'B', 'C']] ∧
    tokens " cn 0 1".toList = [['C', 'N'], ['0'], ['1']] ∧ isLabelLine " cn 0 1".toList = false := by decide

/-- R115 at its boundary: the one byte a Constant emits, and BadConstant above 0xFF. -/
theorem test_pass2_constant :
    pass2Line { Sru.idle with line := 2, obj := [1, 2, 3], chk := 6 } "a k FF".toList =
      .next { Sru.idle with line := 2, obj := [1, 2, 3, 0xFF], chk := 5 } ∧
    pass2Line { Sru.idle with line := 2 } "a k 100".toList = .error .badConstant 2 := by decide

/-- V-SRU-8, for both statements about accepted sources. -/
theorem test_witness_ObjectStreamLayoutAndChecksum : assemble (lines [" @ 123", " #"]) = .object [0x01, 0x23, 0x00, 0x24] := by
  decide

theorem test_witness_EveryAssembledStreamLoads : assemble (lines [" @ 1FC0", " CN 0", " #"]) = .object [0x0F, 0xC0, 0x01, 0x30, 0x00] := by
  decide

theorem test_witness_SruAgentComputesTheFunction_command :
    (State.reset.setHost [.assemble (lines [" @ 123", " #"]), .observe]).running = false ∧
    (State.reset.setHost [.assemble (lines [" @ 123", " #"]), .observe]).sru.phase = .idle ∧
    (State.reset.setHost [.assemble (lines [" @ 123", " #"]), .observe]).host =
      .assemble (lines [" @ 123", " #"]) :: [.observe] := by decide

theorem test_witness_SruAgentComputesTheFunction : (State.reset.setSru (Sru.start (lines [" @ 123", " #"]))).running = false ∧
    (State.reset.setSru (Sru.start (lines [" @ 123", " #"]))).sru = Sru.start (lines [" @ 123", " #"]) := by decide

/-- V-ERR-9 (an instruction line), V-ERR-7 (a Constant label), V-ERR-10 and an Origin without an operand, V-ERR-1. -/
theorem test_witness_FirstLineMustBeOrigin :
    pass1 (lines [" LD 0"]) (Sru.start (lines [" LD 0"])) =
      .finish { Sru.start (lines [" LD 0"]) with cursor := 2, count := 2, line := 1 } ∧
    (tokens " LD 0".toList).head? ≠ some tokOrigin ∧ isLabelLine "N1 K 05".toList = true ∧
    isLabelLine " @ XYZ".toList = false ∧ tokens " @ XYZ".toList = [tokOrigin, ['X', 'Y', 'Z']] ∧
    hexValue ['X', 'Y', 'Z'] = none ∧ tokens " @".toList = [tokOrigin] ∧
    isLabelLine "@ 000".toList = true ∧ (tokens "@ 000".toList).head? = some tokOrigin := by decide

/-- V-ERR-1 (on line 1), V-ERR-2 (a mnemonic in lower case, on line 2). -/
theorem test_witness_ReservedFirstLabelRefused : isLabelLine "@ 000".toList = true ∧ (tokens "@ 000".toList).head? = some ['@'] ∧
    isLabelLine "add".toList = true ∧ (tokens "add".toList).head? = some ['A', 'D', 'D'] ∧
    (⟨.ADD, ['A', 'D', 'D'], 0x4, 2⟩ : CatalogRow) ∈ catalog ∧
    pass1 (lines [" @ 000"]) (Sru.start (lines [" @ 000"] ++ "add".toList :: lines [" #"])) =
      .finish { Sru.start (lines [" @ 000", "add", " #"]) with line := 1 } ∧
    (∀ l ∈ lines [" @ 000"], isLabelLine l = true ∨ (tokens l).head? ≠ some ['#']) := by decide

/-- A blank line; label lines with a new name (alone, with K, with another token); a name already bound. -/
theorem test_witness_Pass1BindsLabelsAndMovesCursor_labels : tokens " ".toList = [] ∧
    tokens "x".toList = [['X']] ∧ tokens "N1 K 05".toList = [['N', '1'], ['K'], ['0', '5']] ∧
    tokens "LOOP LD X".toList = [['L', 'O', 'O', 'P'], ['L', 'D'], ['X']] ∧
    isLabelLine "x".toList = true ∧ isLabelLine "N1 K 05".toList = true ∧ isLabelLine "LOOP LD X".toList = true ∧
    (∀ row ∈ catalog, ['X'] ≠ row.name ∧ ['N', '1'] ≠ row.name ∧ ['L', 'O', 'O', 'P'] ≠ row.name) ∧
    symLookup [] ['N', '1'] = none ∧ symLookup [(['X'], 0xFFF)] ['X'] = some 0xFFF := by decide

/-- Statement lines: an Origin past 12 bits, one without and one with a malformed operand, an End, an instruction, neither. -/
theorem test_witness_Pass1BindsLabelsAndMovesCursor_statements : tokens " @ 1FC0".toList = [['@'], ['1', 'F', 'C', '0']] ∧
    hexValue ['1', 'F', 'C', '0'] = some 0x1FC0 ∧ tokens " @".toList = [['@']] ∧ hexValue ['X', 'Y', 'Z'] = none ∧
    tokens " #".toList = [['#']] ∧ tokens " mult".toList = [['M', 'U', 'L', 'T']] ∧
    (⟨.MULT, ['M', 'U', 'L', 'T'], 0x6, 2⟩ : CatalogRow) ∈ catalog ∧ tokens " NOP 0".toList = [['N', 'O', 'P'], ['0']] ∧
    (∀ row ∈ catalog, ['N', 'O', 'P'] ≠ row.name) ∧ isLabelLine " NOP 0".toList = false := by decide

/-- V-SRU-7's symbol table, and V-SRU-3's: what pass 1 leaves in SYMTAB, CURSOR and COUNT. -/
theorem test_sru_symbols :
    pass1 (lines [" @ 100", " LD X", " @ 200", "X K 07"]) (Sru.start []) =
      .finish { Sru.start [] with symtab := [(['X'], 0x200)], cursor := 0x201, count := 3, line := 4 } ∧
    pass1 (lines [" @ 010", " JP END1", " CN 0", "END1", " OS 0", " #"]) (Sru.start []) =
      .finish { Sru.start [] with symtab := [("END1".toList, 0x013)], cursor := 0x014, count := 4, line := 6 } := by decide

end Sys2Proof.Tests
end

section
/-! SUPPORT. The decoder by catalog row: what the fields of a byte are as numbers, what decoding answers for each size a row can
have, and which operand the answered instruction carries. The statements of 30_encoding.md follow from these. -/
namespace Sys2Proof

/-! ### Fields as numbers -/

theorem opcodeNibble_toNat (b : Byte) : (opcodeNibble b).toNat = b.toNat / 16 := by
  have hb := b.isLt
  simp only [opcodeNibble, BitVec.extractLsb'_toNat, Nat.shiftRight_eq_div_pow]
  omega

theorem lowNibble_toNat (b : Byte) : (lowNibble b).toNat = b.toNat % 16 := by
  simp [lowNibble]

theorem lowNibble_append : ∀ nib low : Nibble, lowNibble (nib ++ low) = low := by decide

theorem nibblePair_eq_ofNat (nib low : Nibble) : (nib ++ low : Byte) = BitVec.ofNat 8 (16 * nib.toNat + low.toNat) := by
  apply BitVec.eq_of_toNat_eq
  have hnib := nib.isLt
  have hlow := low.isLt
  rw [BitVec.toNat_append, ← Nat.shiftLeft_add_eq_or_of_lt hlow, Nat.shiftLeft_eq, BitVec.toNat_ofNat]
  omega

/-- The operand's two parts, put side by side, are the operand (30_encoding.md R50, R52). -/
theorem addr12_wordBytes (nib : Nibble) (v : Addr) :
    addr12 (nib ++ v.extractLsb' 8 4) (v.extractLsb' 0 8) = v := by
  rw [addr12, lowNibble_append]
  exact BitVec.extractLsb'_append_extractLsb'_eq_extractLsb' (by omega) |>.trans (BitVec.extractLsb'_eq_self)

/-! ### The catalog -/

theorem catalog_size {row : CatalogRow} : row ∈ catalog → row.size = 1 ∨ row.size = 2 := by
  revert row
  decide

/-- No nibble has two rows, so the lookup finds the row itself (R53). -/
theorem catalogByNibble_of_mem {row : CatalogRow} : row ∈ catalog → catalogByNibble row.nibble = some row := by
  revert row
  decide

theorem mem_catalog_of_catalogByNibble {n : Nibble} {row : CatalogRow} (h : catalogByNibble n = some row) : row ∈ catalog :=
  List.mem_of_find?_eq_some h

/-- The nibbles of the one-byte instructions (R51). -/
theorem catalogByNibble_size_one :
    ∀ n : Nibble, n.toNat ∈ [0x3, 0xB, 0xC] → ∃ row ∈ catalog, catalogByNibble n = some row ∧ row.size = 1 := by decide

/-- The nibbles of the two-byte instructions (R51). -/
theorem catalogByNibble_size_two :
    ∀ n : Nibble, n.toNat ∈ [0x0, 0x1, 0x2, 0x4, 0x5, 0x6, 0x7, 0x8, 0x9, 0xA] →
      ∃ row ∈ catalog, catalogByNibble n = some row ∧ row.size = 2 := by decide

/-- The nibbles without a row (R55). -/
theorem catalogByNibble_illegal : ∀ n : Nibble, n.toNat ∈ [0xD, 0xE, 0xF] → catalogByNibble n = none := by decide

/-! ### The instruction a mnemonic stands for -/

@[simp] theorem Mnemonic.toInstr_mnemonic? (m : Mnemonic) (b1 b2 : Byte) : (m.toInstr b1 b2).mnemonic? = some m := by
  cases m <;> rfl

@[simp] theorem Mnemonic.toInstr_wf (m : Mnemonic) (b1 b2 : Byte) : (m.toInstr b1 b2).wf = true := by
  simp [Instr.wf]

/-- Format W: a size-2 row's instruction carries `op12` and no sub-operand (R50, R52). -/
theorem toInstr_fields_of_size_two {row : CatalogRow} (hrow : row ∈ catalog) (hsize : row.size = 2) (b1 b2 : Byte) :
    (row.mnemonic.toInstr b1 b2).op12? = some (addr12 b1 b2) ∧ (row.mnemonic.toInstr b1 b2).sub4? = none := by
  fin_cases hrow <;> simp [Mnemonic.toInstr, Instr.op12?, Instr.sub4?] at hsize ⊢

/-- Format B: a size-1 row's instruction carries `sub4` and no operand (R50, R52). -/
theorem toInstr_fields_of_size_one {row : CatalogRow} (hrow : row ∈ catalog) (hsize : row.size = 1) (b1 b2 : Byte) :
    (row.mnemonic.toInstr b1 b2).op12? = none ∧ (row.mnemonic.toInstr b1 b2).sub4? = some (lowNibble b1) := by
  fin_cases hrow <;> simp [Mnemonic.toInstr, Instr.op12?, Instr.sub4?] at hsize ⊢

/-- An illegal nibble's instruction is outside the catalog and carries no operand (R55). -/
theorem illegalInstr_fields (b1 : Byte) :
    (illegalInstr b1).op12? = none ∧ (illegalInstr b1).sub4? = none ∧ (illegalInstr b1).wf = false := by
  unfold illegalInstr
  split
  · exact ⟨rfl, rfl, rfl⟩
  · split
    · exact ⟨rfl, rfl, rfl⟩
    · exact ⟨rfl, rfl, rfl⟩

/-! ### What decoding answers, by the first byte's row -/

section
variable {b1 : Byte} {row : CatalogRow}

theorem decode_of_size_one (hrow : catalogByNibble (opcodeNibble b1) = some row) (hsize : row.size = 1) (rest : List Byte) :
    decode (b1 :: rest) = .ok (row.mnemonic.toInstr b1 0) rest := by
  simp [decode, hasSecondByte, decodePair, hrow, hsize]

theorem decode_of_size_two (hrow : catalogByNibble (opcodeNibble b1) = some row) (hsize : row.size = 2) (b2 : Byte)
    (rest : List Byte) : decode (b1 :: b2 :: rest) = .ok (row.mnemonic.toInstr b1 b2) rest := by
  simp [decode, hasSecondByte, decodePair, hrow, hsize]

theorem decode_of_illegal (hnone : catalogByNibble (opcodeNibble b1) = none) (rest : List Byte) :
    decode (b1 :: rest) = .ok (illegalInstr b1) rest := by
  simp [decode, hasSecondByte, decodePair, hnone]

end

/-- Every instruction decoded from two bytes or more is a size-2 row's, a size-1 row's or an illegal nibble's. -/
theorem decode_cases {b1 b2 : Byte} {rest r : List Byte} {i : Instr} (h : decode (b1 :: b2 :: rest) = .ok i r) :
    (∃ row ∈ catalog, row.size = 2 ∧ i = row.mnemonic.toInstr b1 b2) ∨
    (∃ row ∈ catalog, row.size = 1 ∧ i = row.mnemonic.toInstr b1 0) ∨
    i = illegalInstr b1 := by
  cases hfind : catalogByNibble (opcodeNibble b1) with
  | none =>
    rw [decode_of_illegal hfind] at h
    cases h
    exact .inr (.inr rfl)
  | some row =>
    have hrow := mem_catalog_of_catalogByNibble hfind
    rcases catalog_size hrow with hsize | hsize
    · rw [decode_of_size_one hfind hsize] at h
      cases h
      exact .inr (.inl ⟨row, hrow, hsize, rfl⟩)
    · rw [decode_of_size_two hfind hsize] at h
      cases h
      exact .inl ⟨row, hrow, hsize, rfl⟩

/-! ### What the SRU emits for a row (R60) -/

theorem encodeRow_of_size_one {row : CatalogRow} (hsize : row.size = 1) (v : Addr) :
    encodeRow row v = [row.nibble ++ v.extractLsb' 0 4] := by
  simp [encodeRow, hsize, controlByte]

theorem encodeRow_of_size_two {row : CatalogRow} (hsize : row.size = 2) (v : Addr) :
    encodeRow row v = [row.nibble ++ v.extractLsb' 8 4, v.extractLsb' 0 8] := by
  simp [encodeRow, hsize, wordBytes]

theorem encodeRow_size_one_bytes {row : CatalogRow} (hsize : row.size = 1) (v : Addr) :
    encodeRow row v = [BitVec.ofNat 8 (16 * row.nibble.toNat + v.toNat % 16)] := by
  rw [encodeRow_of_size_one hsize, nibblePair_eq_ofNat]
  simp

theorem encodeRow_size_two_bytes {row : CatalogRow} (hsize : row.size = 2) (v : Addr) :
    encodeRow row v =
      [BitVec.ofNat 8 (16 * row.nibble.toNat + v.toNat / 256), BitVec.ofNat 8 (v.toNat % 256)] := by
  have hhigh : (v.extractLsb' 8 4).toNat = v.toNat / 256 := by
    have hv := v.isLt
    rw [BitVec.extractLsb'_toNat, Nat.shiftRight_eq_div_pow]
    omega
  have hlow : v.extractLsb' 0 8 = BitVec.ofNat 8 (v.toNat % 256) := by
    apply BitVec.eq_of_toNat_eq
    simp
  rw [encodeRow_of_size_two hsize, nibblePair_eq_ofNat, hhigh, hlow]

theorem decode_encodeRow_size_one {row : CatalogRow} (hrow : row ∈ catalog) (hsize : row.size = 1) (v : Addr)
    (rest : List Byte) :
    decode (encodeRow row v ++ rest) = .ok (row.mnemonic.toInstr (row.nibble ++ v.extractLsb' 0 4) 0) rest := by
  rw [encodeRow_of_size_one hsize]
  exact decode_of_size_one (by rw [Laws.opcodeNibble_append, catalogByNibble_of_mem hrow]) hsize rest

theorem decode_encodeRow_size_two {row : CatalogRow} (hrow : row ∈ catalog) (hsize : row.size = 2) (v : Addr)
    (rest : List Byte) :
    decode (encodeRow row v ++ rest) =
      .ok (row.mnemonic.toInstr (row.nibble ++ v.extractLsb' 8 4) (v.extractLsb' 0 8)) rest := by
  rw [encodeRow_of_size_two hsize]
  exact decode_of_size_two (by rw [Laws.opcodeNibble_append, catalogByNibble_of_mem hrow]) hsize _ rest

end Sys2Proof

/-! ### The statements -/

namespace Sys2Proof.Machine

/-- A fetch reads PC and the two bytes there, nothing else of the state (R51, R54). -/
theorem fetchInstr_congr {s t : State} (hpc : t.pc = s.pc) (hfirst : memRead t s.pc = memRead s s.pc)
    (hsecond : memRead t (s.pc + 1) = memRead s (s.pc + 1)) : fetchInstr t = fetchInstr s := by
  simp only [fetchInstr, hpc, hfirst, hsecond]

/-- Settles O4: each nibble class fixes the row's size, and decoding follows the row. -/
theorem lengthDecidedByFirstNibble : Obligations.LengthDecidedByFirstNibble := by
  refine ⟨fun b1 b2 rest => ⟨fun hclass => ?_, fun hclass => ?_, fun hclass => ?_⟩, fun s t => fetchInstr_congr⟩
  all_goals rw [← opcodeNibble_toNat] at hclass
  · obtain ⟨row, -, hfind, hsize⟩ := catalogByNibble_size_one _ hclass
    exact ⟨_, decode_of_size_one hfind hsize _, by simp⟩
  · obtain ⟨row, -, hfind, hsize⟩ := catalogByNibble_size_two _ hclass
    exact ⟨_, decode_of_size_two hfind hsize _ _, by simp⟩
  · exact catalogByNibble_illegal _ hclass

/-- Settles O5: the three kinds of instruction decoding can answer carry `op12` alone, `sub4` alone, or neither. -/
theorem operandFieldsAssembled : Obligations.OperandFieldsAssembled := by
  intro b1 b2 rest i r h
  obtain ⟨row, hrow, hsize, rfl⟩ | ⟨row, hrow, hsize, rfl⟩ | rfl := decode_cases h
  · obtain ⟨hop, hsub⟩ := toInstr_fields_of_size_two hrow hsize b1 b2
    have hvalue : (addr12 b1 b2).toNat = (b1.toNat % 16) * 256 + b2.toNat := by
      rw [addr12_toNat]
      omega
    rw [hop, hsub]
    simp [hvalue]
  · obtain ⟨hop, hsub⟩ := toInstr_fields_of_size_one hrow hsize b1 0
    rw [hop, hsub]
    simp [lowNibble_toNat]
  · obtain ⟨hop, hsub, hwf⟩ := illegalInstr_fields b1
    rw [hop, hsub, hwf]
    simp

/-- Settles O6: by the row's size, the emitted bytes in numbers and the fields read back from them. -/
theorem emittedInstructionBytesDecode : Obligations.EmittedInstructionBytesDecode := by
  intro row hrow v rest
  refine ⟨fun hsize => encodeRow_size_one_bytes hsize v, fun hsize => encodeRow_size_two_bytes hsize v, ?_⟩
  rcases catalog_size hrow with hsize | hsize
  · refine ⟨_, decode_encodeRow_size_one hrow hsize v rest, by simp, by simp [hsize], fun _ => ?_⟩
    obtain ⟨-, hsub⟩ := toInstr_fields_of_size_one hrow hsize (row.nibble ++ v.extractLsb' 0 4) 0
    rw [hsub, lowNibble_append]
    simp
  · refine ⟨_, decode_encodeRow_size_two hrow hsize v rest, by simp, fun _ => ?_, by simp [hsize]⟩
    obtain ⟨hop, -⟩ :=
      toInstr_fields_of_size_two hrow hsize (row.nibble ++ v.extractLsb' 8 4) (v.extractLsb' 0 8)
    rw [hop, addr12_wordBytes]

end Sys2Proof.Machine
end

section
/-! SUPPORT. The subroutine call: its bytes in numbers and its one outcome. The statement of 44_subroutine_os.md follows from
these. -/
namespace Sys2Proof

/-- SC is laid out as the SRU emits its catalog row, in format W (R50, R53, R60). -/
theorem encode_sc_eq_encodeRow (op12 : Addr) : encode (.sc op12) = encodeRow ⟨.SC, ['S', 'C'], 0xA, 2⟩ op12 := rfl

namespace Machine

/-- SC's only outcome, the pushed address and the target being the starting state's own (R95). -/
theorem exec_sc (op12 : Addr) (s : State) :
    exec (.sc op12) s = .next (((s.setLatch false).setStack (s.pc :: s.stack)).setPc (resolve op12 s).1) := rfl

/-- Settles O26: the bytes are the catalog row's, and every field is read off the one outcome. -/
theorem scPushesAndJumps : Obligations.SCPushesAndJumps := by
  intro op12 s
  constructor
  · rw [encode_sc_eq_encodeRow, encodeRow_size_two_bytes rfl]
    rfl
  · have hmem : sameMemory s (((s.setLatch false).setStack (s.pc :: s.stack)).setPc (resolve op12 s).1) :=
      memRead_congr rfl
    refine ⟨_, exec_sc op12 s, ?_⟩
    simp [sameRunFlags, hmem, sameDevices, sameOutside]

end Machine

end Sys2Proof
end

section
/-! SUPPORT. The first line of a source: when one line of pass 1 refuses it, and when the header of pass 2 does. The statement of
46_assembler_symbol_resolution.md R122 follows from these. -/
namespace Sys2Proof.Machine

/-! ### Line 1 in pass 1 -/

/-- An Origin statement needs a hex operand (R117, R120). -/
theorem pass1Line_badOrigin {text : Line} (hstatement : isLabelLine text = false)
    (horigin : (tokens text).head? = some tokOrigin)
    (hoperand : ∀ t2, (tokens text)[1]? = some t2 → hexValue t2 = none) (r : Sru) :
    pass1Line r text = .error .badOrigin r.line := by
  obtain ⟨ts, htokens⟩ := List.head?_eq_some_iff.mp horigin
  rw [htokens] at hoperand
  cases ts with
  | nil => simp [pass1Line, htokens, hstatement, pass1Statement]
  | cons t2 ts =>
    have hnone : hexValue t2 = none := hoperand t2 rfl
    simp [pass1Line, htokens, hstatement, pass1Statement, hnone]

/-- A label line takes no reserved name (R113). -/
theorem pass1Line_reservedName {text : Line} {name : Token} (hlabel : isLabelLine text = true)
    (hname : (tokens text).head? = some name) (hreserved : isReserved name = true) (r : Sru) :
    pass1Line r text = .error .reservedName r.line := by
  obtain ⟨ts, htokens⟩ := List.head?_eq_some_iff.mp hname
  simp [pass1Line, htokens, hlabel, pass1Label, hreserved]

/-- An error on line 1 is the whole assembly's (R130). -/
theorem assemble_of_pass1Line_error {text : Line} {e : SruError} (h : ∀ r, pass1Line r text = .error e r.line)
    (rest : List Line) : assemble (text :: rest) = .error e 1 := by
  simp [assemble, pass1, h, Sru.nextLine, Sru.start, Sru.idle]

/-! ### Line 1 in the header of pass 2 -/

/-- Pass 1 reads the source text and never changes it. -/
theorem pass1_finish_source {lines : List Line} {r r' : Sru} (h : pass1 lines r = .finish r') : r'.source = r.source := by
  induction lines generalizing r with
  | nil => cases h; rfl
  | cons text rest ih =>
    rw [pass1] at h
    cases hline : pass1Line r.nextLine text with
    | next r1 =>
      rw [hline] at h
      obtain ⟨-, hsource, -⟩ := pass1Line_next hline
      exact (ih h).trans hsource
    | finish r1 =>
      rw [hline] at h
      cases h
      rw [pass1Line_finish hline]
      rfl
    | error e n => rw [hline] at h; cases h

/-- The header is refused for a first line that is not an Origin statement (R122), by the number of its tokens. -/
theorem emitHeader_missingOrigin {r : Sru} {text : Line} {rest : List Line} (hsource : r.source = text :: rest)
    (hline : isLabelLine text = true ∨ (tokens text).head? ≠ some tokOrigin) :
    emitHeader r = .error .missingOrigin 1 := by
  simp only [emitHeader, hsource]
  match htokens : tokens text with
  | [] => rfl
  | [_] => rfl
  | t1 :: t2 :: ts =>
    have hrefused : (isLabelLine text || t1 != tokOrigin) = true := by simpa [htokens] using hline
    exact if_pos hrefused

/-- Settles O57: pass 1 refuses the two malformed Origin lines, the header of pass 2 any other first line. -/
theorem firstLineMustBeOrigin : Obligations.FirstLineMustBeOrigin := by
  intro text rest
  refine ⟨fun r hpass1 hline => ?_, fun hstatement horigin hoperand => ?_, fun hlabel horigin => ?_⟩
  · have hsource : r.beginPass2.source = text :: rest := pass1_finish_source hpass1
    simp [assemble, hpass1, assemblePass2, emitHeader_missingOrigin hsource hline]
  · exact assemble_of_pass1Line_error (pass1Line_badOrigin hstatement horigin hoperand) rest
  · have hreserved : isReserved tokOrigin = true := isReserved_iff.mpr (.inr (.inl rfl))
    exact assemble_of_pass1Line_error (pass1Line_reservedName hlabel horigin hreserved) rest

end Sys2Proof.Machine
end

section
/-! SUPPORT. Decoder and encoder as each other's inverse, by the format of the instruction (30_encoding.md R50). -/
namespace Sys2Proof

theorem opcodeNibble_append_lowNibble : ∀ b : Byte, opcodeNibble b ++ lowNibble b = b := by decide

/-- Putting the operand of a byte pair back into format W gives the pair. -/
theorem wordBytes_addr12 (b1 b2 : Byte) : wordBytes (opcodeNibble b1) (addr12 b1 b2) = [b1, b2] := by
  have hhigh : (addr12 b1 b2).extractLsb' 8 4 = lowNibble b1 := BitVec.extractLsb'_append_eq_left
  have hlow : (addr12 b1 b2).extractLsb' 0 8 = b2 := BitVec.extractLsb'_append_eq_right
  rw [wordBytes, hhigh, hlow, opcodeNibble_append_lowNibble]

theorem opcodeNibble_eq_of_catalogByNibble {n : Nibble} {row : CatalogRow} (h : catalogByNibble n = some row) :
    row.nibble = n := by
  simpa using List.find?_some h

/-! ### Decoding what was encoded -/

section
variable {i : Instr} {nib : Nibble} {row : CatalogRow}

/-- Format W: an instruction encoded as its row's nibble and an operand is decoded from the row and that operand. -/
theorem decode_encode_of_word {v : Addr} (hencode : encode i = wordBytes nib v) (hrow : catalogByNibble nib = some row)
    (hsize : row.size = 2) (hinstr : ∀ b1 b2, addr12 b1 b2 = v → row.mnemonic.toInstr b1 b2 = i) (rest : List Byte) :
    decode (encode i ++ rest) = .ok i rest := by
  rw [hencode, ← hinstr _ _ (addr12_wordBytes nib v)]
  exact decode_of_size_two (by rw [Laws.opcodeNibble_append, hrow]) hsize _ rest

/-- Format B: the same for a sub-operand. -/
theorem decode_encode_of_control {n : Nibble} (hencode : encode i = controlByte nib n)
    (hrow : catalogByNibble nib = some row) (hsize : row.size = 1)
    (hinstr : ∀ b1, lowNibble b1 = n → row.mnemonic.toInstr b1 0 = i) (rest : List Byte) :
    decode (encode i ++ rest) = .ok i rest := by
  rw [hencode, ← hinstr _ (lowNibble_append nib n)]
  exact decode_of_size_one (by rw [Laws.opcodeNibble_append, hrow]) hsize rest

/-- An illegal nibble's one byte (R55). -/
theorem decode_encode_of_illegal {n : Nibble} (hencode : encode i = controlByte nib n)
    (hrow : catalogByNibble nib = none) (hinstr : illegalInstr (nib ++ n) = i) (rest : List Byte) :
    decode (encode i ++ rest) = .ok i rest := by
  rw [hencode, ← hinstr]
  exact decode_of_illegal (by rw [Laws.opcodeNibble_append, hrow]) rest

end

/-! ### Encoding what was decoded -/

/-- Format W: a size-2 row's instruction is encoded as the row's nibble and the operand. -/
theorem encode_toInstr_of_size_two {row : CatalogRow} (hrow : row ∈ catalog) (hsize : row.size = 2) (b1 b2 : Byte) :
    encode (row.mnemonic.toInstr b1 b2) = wordBytes row.nibble (addr12 b1 b2) := by
  fin_cases hrow <;> simp [Mnemonic.toInstr, encode] at hsize ⊢

/-- Format B: a size-1 row's instruction is encoded as the row's nibble and the sub-operand. -/
theorem encode_toInstr_of_size_one {row : CatalogRow} (hrow : row ∈ catalog) (hsize : row.size = 1) (b1 b2 : Byte) :
    encode (row.mnemonic.toInstr b1 b2) = controlByte row.nibble (lowNibble b1) := by
  fin_cases hrow <;> simp [Mnemonic.toInstr, encode] at hsize ⊢

/-- An illegal nibble's instruction keeps the whole first byte (log 17). -/
theorem encode_illegalInstr : ∀ b1 : Byte, catalogByNibble (opcodeNibble b1) = none → encode (illegalInstr b1) = [b1] := by
  decide

/-- Settles O1: by the format of each constructor. -/
theorem decodeOfEncodeGivesInstrBack : Obligations.DecodeOfEncodeGivesInstrBack := by
  intro i rest
  cases i with
  | jp | jz | jn | add | sub | mult | div | ld | mm | sc =>
    exact decode_encode_of_word rfl rfl rfl (by rintro _ _ rfl; rfl) rest
  | cn | os | io => exact decode_encode_of_control rfl rfl rfl (by rintro _ rfl; rfl) rest
  | illegalD low | illegalE low | illegalF low =>
    exact decode_encode_of_illegal rfl rfl (by simp [illegalInstr, Laws.opcodeNibble_append, lowNibble_append]) rest

/-- Settles O2: by the first byte's row, whose size says how many bytes the decoder took. -/
theorem encodeOfDecodeGivesBytesBack : Obligations.EncodeOfDecodeGivesBytesBack := by
  intro bs i rest h
  cases bs with
  | nil => cases h
  | cons b1 tail =>
    cases hfind : catalogByNibble (opcodeNibble b1) with
    | none =>
      rw [decode_of_illegal hfind] at h
      cases h
      rw [encode_illegalInstr b1 hfind, List.singleton_append]
    | some row =>
      have hrow := mem_catalog_of_catalogByNibble hfind
      have hnibble := opcodeNibble_eq_of_catalogByNibble hfind
      rcases catalog_size hrow with hsize | hsize
      · rw [decode_of_size_one hfind hsize] at h
        cases h
        rw [encode_toInstr_of_size_one hrow hsize, hnibble, controlByte, opcodeNibble_append_lowNibble, List.singleton_append]
      · cases tail with
        | nil => simp [decode, hasSecondByte, hfind, hsize] at h
        | cons b2 tail =>
          rw [decode_of_size_two hfind hsize] at h
          cases h
          rw [encode_toInstr_of_size_two hrow hsize, hnibble, wordBytes_addr12]
          rfl

end Sys2Proof
end

section
/-! SUPPORT. What an execution can do to each part of the state, read off `exec_effect` once: it always answers, it ends in a
fault, in a halt or with the run going on, and it leaves everything outside the engine alone. -/
namespace Sys2Proof.Machine

/-! ### Memory reads are untouched by an update of another field -/

/-- A state with the same memory reads the same at every address. -/
theorem sameMemory_of_mem_eq {s t : State} (h : t.mem = s.mem) : sameMemory s t := memRead_congr h

@[simp] theorem sameMemory_refl (s : State) : sameMemory s s := fun _ => rfl
@[simp] theorem sameMemory_setAcc (s t : State) (v : Byte) : sameMemory s (t.setAcc v) ↔ sameMemory s t := Iff.rfl
@[simp] theorem sameMemory_setPc (s t : State) (v : Addr) : sameMemory s (t.setPc v) ↔ sameMemory s t := Iff.rfl
@[simp] theorem sameMemory_setStack (s t : State) (v : List Addr) : sameMemory s (t.setStack v) ↔ sameMemory s t := Iff.rfl
@[simp] theorem sameMemory_setLatch (s t : State) (v : Bool) : sameMemory s (t.setLatch v) ↔ sameMemory s t := Iff.rfl
@[simp] theorem sameMemory_setRunning (s t : State) (v : Bool) : sameMemory s (t.setRunning v) ↔ sameMemory s t := Iff.rfl
@[simp] theorem sameMemory_setError (s t : State) (v : Bool) : sameMemory s (t.setError v) ↔ sameMemory s t := Iff.rfl
@[simp] theorem sameMemory_setInput (s t : State) (v : TokenStream) : sameMemory s (t.setInput v) ↔ sameMemory s t := Iff.rfl
@[simp] theorem sameMemory_setOutput (s t : State) (v : List Byte) : sameMemory s (t.setOutput v) ↔ sameMemory s t := Iff.rfl
@[simp] theorem sameMemory_takeFault (s t : State) (f : RuntimeFault) : sameMemory s (takeFault f t) ↔ sameMemory s t := Iff.rfl

/-! ### Executions -/

@[simp] theorem takeFault_haltedWithError (f : RuntimeFault) (s : State) : haltedWithError (takeFault f s) :=
  ⟨rfl, rfl, rfl, rfl⟩

theorem nibble_toNat_eq_zero_iff {n : Nibble} : n.toNat = 0 ↔ n = 0 :=
  ⟨fun h => BitVec.eq_of_toNat_eq h, fun h => h ▸ rfl⟩

theorem byte_toNat_eq_zero_iff {b : Byte} : b.toNat = 0 ↔ b = 0 :=
  ⟨fun h => BitVec.eq_of_toNat_eq h, fun h => h ▸ rfl⟩

/-- Every instruction has a next state in every state (60_exceptions.md R161; log 13). -/
theorem exec_total (i : Instr) (s : State) : ∃ t, exec i s = .next t := by
  cases i with
  | div a =>
    by_cases hz : operandOf s a = 0
    · exact ⟨_, execDIV_zero hz⟩
    · exact ⟨_, execDIV_nonzero hz⟩
  | os n =>
    by_cases hn : n = 0
    · subst hn
      cases hs : s.stack with
      | nil => exact ⟨_, execOS_halt hs⟩
      | cons r rest => exact ⟨_, execOS_return hs⟩
    · exact ⟨_, execOS_error hn⟩
  | io n =>
    rcases Nat.mod_two_eq_zero_or_one n.toNat with hn | hn
    · cases ht : s.input.tokens[s.input.pos]? with
      | none => exact ⟨_, execIO_exhausted hn (List.getElem?_eq_none_iff.mp ht)⟩
      | some tok => exact ⟨_, execIO_read hn ht⟩
    · exact ⟨_, execIO_write hn⟩
  | jp | jz | jn | cn | add | sub | mult | ld | mm | sc | illegalD | illegalE | illegalF => exact ⟨_, rfl⟩

section
variable {i : Instr} {s t : State} (h : exec i s = .next t)
include h

/-- The three ways an execution ends: the fault entry exactly where the fault condition holds, a normal halt exactly where
the instruction halts, and otherwise with RUNNING and ERROR as they were (60_exceptions.md R160, R161, R171). -/
theorem exec_outcome :
    (faultRaised i s ≠ none ∧ ∃ cause latch, t = takeFault cause (s.setLatch latch)) ∨
    (faultRaised i s = none ∧ haltsNormally i s ∧ ∃ latch, t = halt (s.setLatch latch)) ∨
    (faultRaised i s = none ∧ ¬ haltsNormally i s ∧ sameRunFlags s t) := by
  have he := exec_effect h
  cases i with
  | jp | add | sub | mult | ld | mm | sc =>
    obtain rfl := he
    exact .inr (.inr ⟨rfl, by simp [haltsNormally], rfl, rfl⟩)
  | jz | jn =>
    obtain ⟨-, rfl⟩ | ⟨-, rfl⟩ := he <;> exact .inr (.inr ⟨rfl, by simp [haltsNormally], rfl, rfl⟩)
  | cn n =>
    obtain ⟨rfl, rfl⟩ | ⟨hn, rfl⟩ := he
    · exact .inr (.inl ⟨rfl, .inl rfl, s.latch, rfl⟩)
    · exact .inr (.inr ⟨rfl, by simpa [haltsNormally] using hn, rfl, rfl⟩)
  | div a =>
    obtain ⟨hz, rfl⟩ | ⟨hz, rfl⟩ := he
    · exact .inl ⟨by simp [faultRaised, hz], _, _, rfl⟩
    · exact .inr (.inr ⟨by simpa [faultRaised] using hz, by simp [haltsNormally], rfl, rfl⟩)
  | os n =>
    obtain ⟨hn, rfl⟩ | ⟨rfl, hs, rfl⟩ | ⟨rfl, r, rest, hs, rfl⟩ := he
    · exact .inl ⟨by simpa [faultRaised, nibble_toNat_eq_zero_iff] using hn, _, _, rfl⟩
    · exact .inr (.inl ⟨rfl, .inr ⟨rfl, hs⟩, _, rfl⟩)
    · exact .inr (.inr ⟨rfl, by simp [haltsNormally, hs], rfl, rfl⟩)
  | io n =>
    obtain ⟨hn, rfl⟩ | ⟨hn, hp, rfl⟩ | ⟨hn, tok, ht, rfl⟩ := he
    · exact .inr (.inr ⟨by simp [faultRaised, hn], by simp [haltsNormally], rfl, rfl⟩)
    · exact .inl ⟨by simp [faultRaised, hn, hp], _, s.latch, rfl⟩
    · have hp : s.input.pos < s.input.tokens.length := (List.getElem?_eq_some_iff.mp ht).1
      exact .inr (.inr ⟨by simp [faultRaised, hp], by simp [haltsNormally], rfl, rfl⟩)
  | illegalD | illegalE | illegalF =>
    obtain rfl := he
    exact .inl ⟨by simp [faultRaised], _, s.latch, rfl⟩

theorem exec_outside : sameOutside s t := by
  have he := exec_effect h
  cases i with
  | jp | add | sub | mult | ld | mm | sc | illegalD | illegalE | illegalF => obtain rfl := he; exact ⟨rfl, rfl, rfl⟩
  | jz | jn | cn | div => obtain ⟨-, rfl⟩ | ⟨-, rfl⟩ := he <;> exact ⟨rfl, rfl, rfl⟩
  | os => obtain ⟨-, rfl⟩ | ⟨-, -, rfl⟩ | ⟨-, _, _, -, rfl⟩ := he <;> exact ⟨rfl, rfl, rfl⟩
  | io => obtain ⟨-, rfl⟩ | ⟨-, -, rfl⟩ | ⟨-, _, -, rfl⟩ := he <;> exact ⟨rfl, rfl, rfl⟩

/-- Memory changes by MM alone, and then by one store (43_load_store.md R91). -/
theorem exec_memory : t.mem = s.mem ∨ ∃ a, i = .mm a ∧ t.mem = Memory.store s.mem (resolve a s).1.toNat s.acc := by
  have he := exec_effect h
  cases i with
  | mm a => obtain rfl := he; exact .inr ⟨a, rfl, rfl⟩
  | jp | add | sub | mult | ld | sc | illegalD | illegalE | illegalF => obtain rfl := he; exact .inl rfl
  | jz | jn | cn | div => obtain ⟨-, rfl⟩ | ⟨-, rfl⟩ := he <;> exact .inl rfl
  | os => obtain ⟨-, rfl⟩ | ⟨-, -, rfl⟩ | ⟨-, _, _, -, rfl⟩ := he <;> exact .inl rfl
  | io => obtain ⟨-, rfl⟩ | ⟨-, -, rfl⟩ | ⟨-, _, -, rfl⟩ := he <;> exact .inl rfl

/-- The device streams change by IO alone, one token at a time (45_io.md R100 to R102). -/
theorem exec_devices :
    sameDevices s t ∨
    (∃ n tok, i = .io n ∧ n.toNat % 2 = 0 ∧ s.input.tokens[s.input.pos]? = some tok ∧ t.acc = tok ∧
      t.input = ⟨s.input.tokens, s.input.pos + 1⟩ ∧ t.output = s.output) ∨
    (∃ n, i = .io n ∧ n.toNat % 2 = 1 ∧ t.acc = s.acc ∧ t.input = s.input ∧ t.output = s.output ++ [s.acc]) := by
  have he := exec_effect h
  cases i with
  | io n =>
    obtain ⟨hn, rfl⟩ | ⟨-, -, rfl⟩ | ⟨hn, tok, ht, rfl⟩ := he
    · exact .inr (.inr ⟨n, rfl, hn, rfl, rfl, rfl⟩)
    · exact .inl ⟨rfl, rfl⟩
    · exact .inr (.inl ⟨n, tok, rfl, hn, ht, rfl, rfl, rfl⟩)
  | jp | add | sub | mult | ld | mm | sc | illegalD | illegalE | illegalF => obtain rfl := he; exact .inl ⟨rfl, rfl⟩
  | jz | jn | cn | div => obtain ⟨-, rfl⟩ | ⟨-, rfl⟩ := he <;> exact .inl ⟨rfl, rfl⟩
  | os => obtain ⟨-, rfl⟩ | ⟨-, -, rfl⟩ | ⟨-, _, _, -, rfl⟩ := he <;> exact .inl ⟨rfl, rfl⟩

end

end Sys2Proof.Machine
end

section
/-! SUPPORT. The machine's invariant, step by step: the SRU's passes keep the SRU's part, the host's commands and the
instructions the engine's (10_state.md, 46_assembler_symbol_resolution.md, 60_exceptions.md). -/
namespace Sys2Proof.Machine

/-! ### The SRU -/

theorem Sru.wf_idle : Sru.Wf Sru.idle where
  idle_reset _ := rfl
  names_once := List.nodup_nil
  not_reserved _ he := absurd he List.not_mem_nil
  chk_sum := rfl
  obj_empty _ := rfl
  line_bound := Nat.le_refl 0

theorem Sru.wf_start (source : List Line) : Sru.Wf (Sru.start source) where
  idle_reset hphase := nomatch hphase
  names_once := List.nodup_nil
  not_reserved _ he := absurd he List.not_mem_nil
  chk_sum := rfl
  obj_empty _ := rfl
  line_bound := Nat.zero_le _

section
variable {r r' : Sru} {text : Line}

theorem Sru.Wf.nextLine (hwf : Sru.Wf r) (hphase : r.phase ≠ .idle) (hline : r.line < r.source.length) :
    Sru.Wf r.nextLine where
  idle_reset hidle := absurd hidle hphase
  names_once := hwf.names_once
  not_reserved := hwf.not_reserved
  chk_sum := hwf.chk_sum
  obj_empty hstart := hwf.obj_empty (.inl (hstart.resolve_right (Nat.succ_ne_zero _)))
  line_bound := hline

theorem Sru.Wf.beginPass2 (hwf : Sru.Wf r) : Sru.Wf r.beginPass2 where
  idle_reset hidle := nomatch hidle
  names_once := hwf.names_once
  not_reserved := hwf.not_reserved
  chk_sum := rfl
  obj_empty _ := rfl
  line_bound := Nat.zero_le _

/-- What pass 1 adds to SYMTAB is a new name that is not reserved (R113, R124). -/
theorem Sru.Wf.pass1Line_next (hwf : Sru.Wf r) (hphase : r.phase = .pass1) (h : pass1Line r text = .next r') :
    Sru.Wf r' := by
  obtain ⟨hphase', hsource, hchk, hline, hobj, hsymtab⟩ := Machine.pass1Line_next h
  have hempty := hwf.obj_empty (.inl hphase)
  have hnames : (r'.symtab.map Prod.fst).Nodup ∧ ∀ e ∈ r'.symtab, isReserved e.1 = false := by
    obtain hsame | ⟨name, hfree, hnew, hsame⟩ := hsymtab
    · rw [hsame]
      exact ⟨hwf.names_once, hwf.not_reserved⟩
    · rw [hsame]
      exact ⟨List.nodup_cons.mpr ⟨symLookup_none hnew, hwf.names_once⟩,
        List.forall_mem_cons.mpr ⟨hfree, hwf.not_reserved⟩⟩
  exact {
    idle_reset := fun hidle => by rw [hphase', hphase] at hidle; cases hidle
    names_once := hnames.1
    not_reserved := hnames.2
    chk_sum := by rw [hchk, hobj, hwf.chk_sum]
    obj_empty := fun _ => hobj.trans hempty
    line_bound := by rw [hline, hsource]; exact hwf.line_bound }

/-- An emission after the header's line keeps CHK the sum of OBJ (R125, R127). -/
theorem Sru.Wf.emitList (hwf : Sru.Wf r) (hphase : r.phase = .pass2) (hline : r.line ≠ 0) (bs : List Byte) :
    Sru.Wf (r.emitList bs) where
  idle_reset hidle := by rw [Sru.emitList_phase, hphase] at hidle; cases hidle
  names_once := by rw [Sru.emitList_symtab]; exact hwf.names_once
  not_reserved := by rw [Sru.emitList_symtab]; exact hwf.not_reserved
  chk_sum := by rw [Sru.emitList_chk, Sru.emitList_obj, hwf.chk_sum, List.map_append, List.sum_append, Nat.mod_add_mod]
  obj_empty hstart := by simp [hphase, hline] at hstart
  line_bound := by rw [Sru.emitList_line, Sru.emitList_source]; exact hwf.line_bound

end

/-- The lines still to come are not exhausted while LINE is within the text. -/
theorem Sru.line_lt_of_drop {r : Sru} {text : Line} {rest : List Line} (h : r.source.drop r.line = text :: rest) :
    r.line < r.source.length := by
  by_contra hge
  rw [List.drop_eq_nil_of_le (Nat.le_of_not_lt hge)] at h
  cases h

theorem Sru.Wf.stepPass1 {r : Sru} (hwf : Sru.Wf r) (hphase : r.phase = .pass1) : Sru.Wf r.stepPass1.1 := by
  unfold Sru.stepPass1
  split
  · exact hwf.beginPass2
  · rename_i text rest hdrop
    have hnext : Sru.Wf r.nextLine := hwf.nextLine (by simp [hphase]) (Sru.line_lt_of_drop hdrop)
    split
    · rename_i hline; exact hnext.pass1Line_next hphase hline
    · rename_i hline; rw [pass1Line_finish hline]; exact hnext.beginPass2
    · exact Sru.wf_idle

theorem Sru.Wf.emitHeader_next {r r' : Sru} (hwf : Sru.Wf r) (hphase : r.phase = .pass2) (hline : r.line = 0)
    (h : emitHeader r = .next r') : Sru.Wf r' := by
  obtain ⟨text, rest, t2, v, hsource, -, -, -, -, rfl⟩ := Machine.emitHeader_next h
  have hnext : ({ r with line := 1 } : Sru) = r.nextLine := by simp [Sru.nextLine, hline]
  rw [hnext]
  exact (hwf.nextLine (by simp [hphase]) (by simp [hline, hsource])).emitList hphase (Nat.succ_ne_zero _) _

theorem Sru.Wf.stepPass2 {r : Sru} (hwf : Sru.Wf r) (hphase : r.phase = .pass2) : Sru.Wf r.stepPass2.1 := by
  unfold Sru.stepPass2
  split
  · rename_i hzero
    split
    · rename_i hheader; exact hwf.emitHeader_next hphase hzero hheader
    · rename_i hheader; exact absurd hheader emitHeader_not_finish
    · exact Sru.wf_idle
  · split
    · exact Sru.wf_idle
    · rename_i text rest hdrop
      split
      · rename_i hline
        obtain ⟨bs, rfl⟩ := pass2Line_next hline
        exact (hwf.nextLine (by simp [hphase]) (Sru.line_lt_of_drop hdrop)).emitList hphase (Nat.succ_ne_zero _) bs
      · exact Sru.wf_idle
      · exact Sru.wf_idle

theorem Sru.Wf.advance {r : Sru} (hwf : Sru.Wf r) : Sru.Wf r.advance.1 := by
  unfold Sru.advance
  split
  · exact hwf
  · rename_i hphase; exact hwf.stepPass1 hphase
  · rename_i hphase; exact hwf.stepPass2 hphase

/-! ### The stopped engine -/

theorem sruStep_toEngine (s : State) : (sruStep s).toEngine = s.toEngine := by
  unfold sruStep
  split <;> rfl

theorem sruStep_sru (s : State) : (sruStep s).sru = s.sru.advance.1 := by
  unfold sruStep
  split <;> simp_all [addReply]

theorem sruStep_host (s : State) : (sruStep s).host = s.host := by
  unfold sruStep
  split <;> rfl

section
variable {s t : State}

/-- The engine's part of the invariant looks at the engine alone. -/
theorem MachineInv.of_toEngine_eq (hinv : MachineInv s) (hengine : t.toEngine = s.toEngine) (hrunning : s.running = false)
    (hwf : Sru.Wf t.sru) : MachineInv t where
  mem_canonical := by rw [hengine]; exact hinv.mem_canonical
  input_pos := by rw [hengine]; exact hinv.input_pos
  error_halted := by unfold haltedWithError; rw [hengine]; exact hinv.error_halted
  sru_rests := by rw [hengine, hrunning]; exact fun h => nomatch h
  sru_wf := hwf

theorem MachineInv.setMem (hinv : MachineInv s) {m : Memory} (hm : Memory.wf m = true) : MachineInv (s.setMem m) where
  mem_canonical := hm
  input_pos := hinv.input_pos
  error_halted := hinv.error_halted
  sru_rests := hinv.sru_rests
  sru_wf := hinv.sru_wf

theorem MachineInv.hostPowerOn (hinv : MachineInv s) (accReset : Byte) : MachineInv (hostPowerOn accReset s) where
  mem_canonical := rfl
  input_pos := Nat.le_refl 0
  error_halted herror := nomatch herror
  sru_rests hrunning := nomatch hrunning
  sru_wf := hinv.sru_wf

theorem MachineInv.hostRun (hinv : MachineInv s) (hphase : s.sru.phase = .idle) (start : Nat) (input : List Byte) :
    MachineInv (hostRun start input s) where
  mem_canonical := hinv.mem_canonical
  input_pos := Nat.zero_le _
  error_halted herror := nomatch herror
  sru_rests _ := hphase
  sru_wf := hinv.sru_wf

theorem MachineInv.hostDo (hinv : MachineInv s) (hrunning : s.running = false) (hphase : s.sru.phase = .idle)
    (c : HostCommand) : MachineInv (hostDo c s) := by
  cases c with
  | powerOn accReset => exact hinv.hostPowerOn accReset
  | run start input => exact hinv.hostRun hphase start input
  | load obj =>
    simp only [Machine.hostDo, hostLoad]
    split
    · rename_i m ok hload
      exact (hinv.setMem (loadObject_wf hload hinv.mem_canonical)).of_toEngine_eq rfl hrunning hinv.sru_wf
    · exact hinv.of_toEngine_eq rfl hrunning hinv.sru_wf
  | peek a => exact hinv.of_toEngine_eq rfl hrunning hinv.sru_wf
  | poke a v => exact hinv.setMem (Memory.wf_store hinv.mem_canonical (BitVec.isLt _))
  | observe => exact hinv.of_toEngine_eq rfl hrunning hinv.sru_wf
  | assemble source => exact hinv.of_toEngine_eq rfl hrunning (Sru.wf_start source)

theorem MachineInv.idleStep (hinv : MachineInv s) (hrunning : s.running = false) : MachineInv (idleStep s) := by
  unfold Machine.idleStep
  split
  · rename_i hphase
    unfold hostStep
    split
    · exact hinv
    · rename_i c rest _
      have htaken : MachineInv (s.setHost rest) := hinv.of_toEngine_eq rfl hrunning hinv.sru_wf
      exact htaken.hostDo hrunning hphase c
  · exact hinv.of_toEngine_eq (sruStep_toEngine s) hrunning (by rw [sruStep_sru]; exact hinv.sru_wf.advance)

/-! ### The running engine -/

theorem MachineInv.exec (hinv : MachineInv s) (hrunning : s.running = true) {i : Instr} (h : exec i s = .next t) :
    MachineInv t := by
  obtain ⟨hsru, -, -⟩ := exec_outside h
  have hclear : s.error = false := by
    by_contra herror
    obtain ⟨-, -, -, hstopped⟩ := hinv.error_halted (by simpa using herror)
    rw [hrunning] at hstopped
    cases hstopped
  refine ⟨?_, ?_, ?_, ?_, ?_⟩
  · obtain hmem | ⟨a, -, hmem⟩ := exec_memory h
    · rw [hmem]; exact hinv.mem_canonical
    · rw [hmem]; exact Memory.wf_store hinv.mem_canonical (BitVec.isLt _)
  · obtain ⟨hinput, -⟩ | ⟨n, tok, -, -, htok, -, hinput, -⟩ | ⟨n, -, -, -, hinput, -⟩ := exec_devices h
    · rw [hinput]; exact hinv.input_pos
    · rw [hinput]; exact (List.getElem?_eq_some_iff.mp htok).1
    · rw [hinput]; exact hinv.input_pos
  · obtain ⟨-, cause, latch, rfl⟩ | ⟨-, -, latch, rfl⟩ | ⟨-, -, -, herror⟩ := exec_outcome h
    · exact fun _ => takeFault_haltedWithError cause _
    · exact fun herror => nomatch herror
    · rw [herror, hclear]; exact fun h => nomatch h
  · rw [hsru]; exact fun _ => hinv.sru_rests hrunning
  · rw [hsru]; exact hinv.sru_wf

end

/-- Settles O10: every field of the reset state is read off. -/
theorem resetMeetsInvariant : Obligations.ResetMeetsInvariant where
  mem_canonical := rfl
  input_pos := Nat.le_refl 0
  error_halted herror := nomatch herror
  sru_rests _ := rfl
  sru_wf := Sru.wf_idle

/-- Settles O11: the running engine by what an execution can do, the stopped one by the agent that moves. -/
theorem stepKeepsInvariant : Obligations.StepKeepsInvariant := by
  intro s t hinv hstep
  cases hrunning : s.running with
  | true =>
    rw [step_running hrunning] at hstep
    exact hinv.exec hrunning hstep
  | false =>
    rw [step_stopped hrunning] at hstep
    cases hstep
    exact hinv.idleStep hrunning

end Sys2Proof.Machine
end

section
/-! SUPPORT. The statements about each instruction: the effect `exec_effect` gives, read field by field. -/
namespace Sys2Proof.Machine

/-- Bit 7 of ACC, as the number JN's statement compares (40_jumps.md R72). -/
theorem byte_msb_iff (b : Byte) : b.msb = true ↔ 128 ≤ b.toNat := by
  simp [BitVec.msb_eq_decide]

/-- A program counter advanced by a small amount, as a number (30_encoding.md R58). -/
theorem addr_add_toNat (a : Addr) (n : Nat) (hn : n < 4096) : (a + BitVec.ofNat 12 n).toNat = (a.toNat + n) % 4096 := by
  rw [BitVec.toNat_add, BitVec.toNat_ofNat, Nat.mod_eq_of_lt hn]

@[simp] theorem addr_add_one_toNat (a : Addr) : (a + 1).toNat = (a.toNat + 1) % 4096 := addr_add_toNat a 1 (by decide)

@[simp] theorem addr_add_two_toNat (a : Addr) : (a + 2).toNat = (a.toNat + 2) % 4096 := addr_add_toNat a 2 (by decide)

/-! ### Resolution and jumps -/

/-- Settles O14: the address in numbers by the latch, the frame from the one field resolution writes. -/
theorem resolveGivesTheSpecAddress : Obligations.ResolveGivesTheSpecAddress := by
  intro op12 s
  refine ⟨fun hlatch => by rw [resolve_direct hlatch], fun hlatch => ?_, ?_⟩
  · have hnext : BitVec.ofNat 12 (op12.toNat + 1) = op12 + 1 := by simp [BitVec.ofNat_add]
    rw [resolve_indirect hlatch, addr12_toNat, hnext]
  · simp [sameRunFlags, sameDevices, sameOutside]

/-- Settles O15: JP has one effect, and it is read field by field. -/
theorem jpGoesToResolvedAddress : Obligations.JPGoesToResolvedAddress := by
  intro op12 s
  obtain ⟨t, ht⟩ := exec_total (.jp op12) s
  obtain rfl := exec_effect ht
  refine ⟨_, ht, ?_⟩
  simp [resolve_toNat, sameRunFlags, sameDevices, sameOutside]

/-- Settles O16: by the jump's condition. -/
theorem jzJumpsOnZero : Obligations.JZJumpsOnZero := by
  intro op12 s
  obtain ⟨t, ht⟩ := exec_total (.jz op12) s
  refine ⟨t, ht, ?_⟩
  obtain ⟨hacc, rfl⟩ | ⟨hacc, rfl⟩ := exec_effect ht
  · simp [byte_toNat_eq_zero_iff.mpr hacc, resolve_toNat, sameRunFlags, sameDevices, sameOutside]
  · simp [byte_toNat_eq_zero_iff.not.mpr hacc, sameRunFlags, sameDevices, sameOutside]

/-- Settles O17: by the jump's condition. -/
theorem jnJumpsOnNegative : Obligations.JNJumpsOnNegative := by
  intro op12 s
  obtain ⟨t, ht⟩ := exec_total (.jn op12) s
  refine ⟨t, ht, ?_⟩
  obtain ⟨hacc, rfl⟩ | ⟨hacc, rfl⟩ := exec_effect ht
  · have hnegative := (byte_msb_iff _).mp hacc
    simp [hnegative, resolve_toNat, sameRunFlags, sameDevices, sameOutside]
  · have hnonnegative : ¬ 128 ≤ s.acc.toNat := by simp [← byte_msb_iff, hacc]
    simp [hnonnegative, sameRunFlags, sameDevices, sameOutside]

/-- Settles O18: by the sub-operand. -/
theorem cnHaltsOrArmsLatch : Obligations.CNHaltsOrArmsLatch := by
  intro sub4 s
  obtain ⟨t, ht⟩ := exec_total (.cn sub4) s
  refine ⟨t, ht, ?_⟩
  obtain ⟨rfl, rfl⟩ | ⟨hn, rfl⟩ := exec_effect ht
  · simp [sameDevices, sameOutside]
  · simp [nibble_toNat_eq_zero_iff.not.mpr hn, sameRunFlags, sameDevices, sameOutside]

/-! ### Arithmetic -/

/-- What an arithmetic instruction leaves: ACC the result modulo 256, PC advanced, the latch spent, the rest alone (R85). -/
theorem arith_frame (op : Int → Int → Int) (op12 : Addr) (s : State) :
    ((arith op op12 s).acc.toNat : Int) = op s.acc.toInt (operandOf s op12).toInt % 256 ∧
    (arith op op12 s).pc.toNat = (s.pc.toNat + 2) % 4096 ∧ (arith op op12 s).latch = false ∧
    (arith op op12 s).stack = s.stack ∧ sameRunFlags s (arith op op12 s) ∧ sameMemory s (arith op op12 s) ∧
    sameDevices s (arith op op12 s) ∧ sameOutside s (arith op op12 s) := by
  rw [arith_eq, memRead_resolve]
  refine ⟨?_, by simp [sameRunFlags, sameDevices, sameOutside]⟩
  have hnonneg : 0 ≤ op s.acc.toInt (operandOf s op12).toInt % 256 := Int.emod_nonneg _ (by decide)
  rw [State.setPc_acc, State.setAcc_acc, trunc8, BitVec.toNat_ofInt]
  exact Int.toNat_of_nonneg hnonneg

/-- Settles O19: the three operations have the arithmetic instructions' common frame. -/
theorem addSubMultWrapModulo256 : Obligations.AddSubMultWrapModulo256 := fun op12 s =>
  ⟨⟨_, rfl, arith_frame (fun a m => a + m) op12 s⟩, ⟨_, rfl, arith_frame (fun a m => a - m) op12 s⟩,
    ⟨_, rfl, arith_frame (fun a m => a * m) op12 s⟩⟩

theorem arith_acc (op : Int → Int → Int) (op12 : Addr) (s : State) :
    (arith op op12 s).acc = BitVec.ofInt 8 (op s.acc.toInt (operandOf s op12).toInt) := by
  rw [arith_eq, memRead_resolve]
  rfl

/-- Settles O20: the three operations are those of the bytes themselves, whichever way these are read. -/
theorem addSubMultSameReadUnsigned : Obligations.AddSubMultSameReadUnsigned := by
  intro op12 s
  refine ⟨⟨_, rfl, ?_⟩, ⟨_, rfl, ?_⟩, ⟨_, rfl, ?_⟩⟩
  · rw [arith_acc, BitVec.ofInt_add, BitVec.ofInt_toInt, BitVec.ofInt_toInt, BitVec.toNat_add]
  · rw [arith_acc, Int.sub_eq_add_neg, BitVec.ofInt_add, BitVec.ofInt_neg, BitVec.ofInt_toInt, BitVec.ofInt_toInt,
      ← BitVec.sub_eq_add_neg, BitVec.toNat_sub]
    have hm := (operandOf s op12).isLt
    omega
  · rw [arith_acc, BitVec.ofInt_mul, BitVec.ofInt_toInt, BitVec.ofInt_toInt, BitVec.toNat_mul]

end Sys2Proof.Machine
end

section
/-! SUPPORT. Signed division (42_arithmetic.md R84): what each rounding gives, and where both give the same. -/
namespace Sys2Proof.Machine

section
variable {a m : Int}

theorem quot_eq_tdiv_of_trunc (h : Config.divRound = .trunc) : quot a m = a.tdiv m := by
  unfold quot
  rw [h]
  exact ite_self _

/-- Where the model leaves the rounding aside, the two quotients are one. -/
theorem tdiv_eq_fdiv_of_fixed (h : a.tmod m = 0 ∨ (a < 0 ↔ m < 0)) : a.tdiv m = a.fdiv m := by
  rw [Int.fdiv_eq_tdiv]
  rcases h with hexact | hsigns
  · rw [if_pos (Int.dvd_of_tmod_eq_zero hexact), Int.sub_zero]
  · rcases lt_or_ge m 0 with hm | hm
    · have ha := hsigns.mpr hm
      simp [Int.sign_eq_neg_one_of_neg hm, Int.not_le.mpr ha, Int.not_le.mpr hm]
    · have ha : 0 ≤ a := Int.not_lt.mp (hsigns.not.mpr (Int.not_lt.mpr hm))
      simp [ha, hm]

theorem quot_eq_fdiv_of_floor (h : Config.divRound = .floor) : quot a m = a.fdiv m := by
  by_cases hfixed : a.tmod m = 0 ∨ (a < 0 ↔ m < 0)
  · rw [quot_fixed hfixed, tdiv_eq_fdiv_of_fixed hfixed]
  · rw [quot_rounded hfixed, h, quotRounded]

/-- Rounding toward zero: the product comes within one divisor of the dividend, on the side of zero. -/
theorem tdiv_toward_zero (hm : m ≠ 0) :
    |a.tdiv m * m| ≤ |a| ∧ |a| < |a.tdiv m * m| + |m| ∧ 0 ≤ a.tdiv m * (a * m) := by
  have hproduct : (a.tdiv m * m).natAbs = a.natAbs / m.natAbs * m.natAbs := by
    rw [Int.natAbs_mul, Int.natAbs_tdiv]
    rfl
  have hbelow := Nat.div_mul_le_self a.natAbs m.natAbs
  have habove := Nat.lt_div_mul_add (a := a.natAbs) (Int.natAbs_pos.mpr hm)
  have hsplit : a.tdiv m * m = a - a.tmod m := by
    have := Int.mul_tdiv_add_tmod a m
    rw [Int.mul_comm]
    omega
  have hrest : (a.tmod m).natAbs ≤ a.natAbs := by
    rw [Int.natAbs_tmod]
    exact Nat.mod_le _ _
  simp only [Int.abs_eq_natAbs, hproduct]
  refine ⟨by exact_mod_cast hbelow, by exact_mod_cast habove, ?_⟩
  rw [Int.mul_comm a m, ← Int.mul_assoc, hsplit]
  rcases le_total 0 a with ha | ha
  · exact mul_nonneg (by omega) ha
  · exact mul_nonneg_of_nonpos_of_nonpos (by omega) ha

/-- Rounding toward minus infinity, for a divisor of either sign. -/
theorem fdiv_toward_minus_infinity :
    (0 < m → a.fdiv m * m ≤ a ∧ a < (a.fdiv m + 1) * m) ∧ (m < 0 → a ≤ a.fdiv m * m ∧ (a.fdiv m + 1) * m < a) := by
  have hpositive : ∀ a m : Int, 0 < m → a.fdiv m * m ≤ a ∧ a < (a.fdiv m + 1) * m := by
    intro a m hm
    rw [Int.fdiv_eq_ediv_of_nonneg a (Int.le_of_lt hm)]
    exact ⟨Int.ediv_mul_le a (Int.ne_of_gt hm), Int.lt_ediv_add_one_mul_self a hm⟩
  refine ⟨hpositive a m, fun hm => ?_⟩
  have hnegated := hpositive (-a) (-m) (Int.neg_pos_of_neg hm)
  rw [Int.neg_fdiv_neg, Int.mul_neg, Int.mul_neg] at hnegated
  omega

/-- With operands of one sign the quotient toward zero is that of the magnitudes. -/
theorem tdiv_eq_natAbs_div (h : a < 0 ↔ m < 0) : a.tdiv m = (a.natAbs / m.natAbs : Nat) := by
  have hnonneg : 0 ≤ a.tdiv m := by
    rcases lt_or_ge m 0 with hm | hm
    · exact Int.tdiv_nonneg_of_nonpos_of_nonpos (Int.le_of_lt (h.mpr hm)) (Int.le_of_lt hm)
    · exact Int.tdiv_nonneg (Int.not_lt.mp (h.not.mpr (Int.not_lt.mpr hm))) hm
  rw [← Int.natAbs_of_nonneg hnonneg, Int.natAbs_tdiv]
  rfl

end

/-- A byte is zero exactly when it reads as the signed number 0. -/
theorem toInt_ne_zero_of_toNat_ne_zero {b : Byte} (h : b.toNat ≠ 0) : b.toInt ≠ 0 := by
  rw [BitVec.toInt_eq_toNat_cond]
  split <;> omega

/-- Settles O21: the quotient is the truncating or the flooring one, as DIV_ROUND says. -/
theorem divGivesRoundedQuotient : Obligations.DivGivesRoundedQuotient := by
  intro op12 s hdivisor
  obtain ⟨hacc, hframe⟩ := arith_frame quot op12 s
  have hnonzero := execDIV_nonzero (byte_toNat_eq_zero_iff.not.mp hdivisor)
  refine ⟨_, hnonzero, ⟨_, hacc, fun htrunc => ?_, fun hfloor => ?_⟩, hframe⟩
  · rw [quot_eq_tdiv_of_trunc htrunc]
    exact tdiv_toward_zero (toInt_ne_zero_of_toNat_ne_zero hdivisor)
  · rw [quot_eq_fdiv_of_floor hfloor]
    exact fdiv_toward_minus_infinity

/-- Settles O22: in both cases the quotient is the truncating one. -/
theorem divFixedWhereRoundingsAgree : Obligations.DivFixedWhereRoundingsAgree := by
  intro op12 s hdivisor
  obtain ⟨hacc, -⟩ := arith_frame quot op12 s
  refine ⟨_, execDIV_nonzero (byte_toNat_eq_zero_iff.not.mp hdivisor), fun q hexact => ?_, fun hsigns => ?_⟩
  · rw [hacc, ← hexact, quot_fixed (.inl (Int.mul_tmod_left q _)),
      Int.mul_tdiv_cancel q (toInt_ne_zero_of_toNat_ne_zero hdivisor)]
  · rw [quot_fixed (.inr hsigns), tdiv_eq_natAbs_div hsigns] at hacc
    exact_mod_cast hacc

/-- Settles O23: the fault is taken in the state whose latch resolution has spent. -/
theorem divByZeroTakesFault : Obligations.DivByZeroTakesFault := by
  intro op12 s hdivisor
  refine ⟨_, execDIV_zero (byte_toNat_eq_zero_iff.mp hdivisor), ?_⟩
  simp [sameDevices, sameOutside]

end Sys2Proof.Machine
end

section
/-! SUPPORT. Load and store, the returns, the devices and the faults: each instruction's outcome, read field by field. -/
namespace Sys2Proof.Machine

/-! ### Load and store -/

/-- Settles O24: LD has one effect, and it is read field by field. -/
theorem ldLoadsTheByte : Obligations.LDLoadsTheByte := by
  intro op12 s
  obtain ⟨t, ht⟩ := exec_total (.ld op12) s
  obtain rfl := exec_effect ht
  refine ⟨_, ht, ?_⟩
  simp [operandOf, sameRunFlags, sameDevices, sameOutside]

/-- The bytes MM leaves: ACC at the resolved address, every other one as before (R91). -/
theorem exec_mm_memory {op12 : Addr} {s t : State} (hwf : Memory.wf s.mem = true) (h : exec (.mm op12) s = .next t) :
    memRead t (resolve op12 s).1 = s.acc ∧ sameMemoryExcept (resolve op12 s).1 s t := by
  obtain rfl := exec_effect h
  exact ⟨memRead_memWrite_same hwf, fun a ha => memRead_memWrite_other ha⟩

/-- Settles O25: the bytes by the laws of a store, the registers from the one effect. -/
theorem mmStoresTheAccumulator : Obligations.MMStoresTheAccumulator := by
  intro op12 s hwf
  obtain ⟨t, ht⟩ := exec_total (.mm op12) s
  refine ⟨t, ht, ?_, ?_⟩
  · rintro ea rfl
    exact ⟨resolve_toNat op12 s, exec_mm_memory hwf ht⟩
  · obtain rfl := exec_effect ht
    simp [sameRunFlags, sameDevices, sameOutside]

/-- Settles O43: the load's latch is clear, so it reads the very cell the store wrote. -/
theorem storeThenLoadReturnsTheByte : Obligations.StoreThenLoadReturnsTheByte := by
  intro op12 s t hwf ht
  obtain ⟨hstored, -⟩ := exec_mm_memory hwf ht
  have hlatch : t.latch = false := by
    obtain rfl := exec_effect ht
    rfl
  obtain ⟨u, hu⟩ := exec_total (.ld (resolve op12 s).1) t
  refine ⟨u, hu, ?_⟩
  obtain rfl := exec_effect hu
  rw [State.setPc_acc, State.setAcc_acc, ← memRead_resolve, resolve_direct hlatch, hstored]

/-! ### Subroutine return -/

/-- Settles O27: the return's branch, read field by field. -/
theorem osZeroReturns : Obligations.OSZeroReturns := by
  intro s r rest hstack
  refine ⟨_, execOS_return hstack, ?_⟩
  simp [sameRunFlags, sameDevices, sameOutside]

/-- Settles O28: the halting branch, read field by field. -/
theorem osZeroOnEmptyStackHalts : Obligations.OSZeroOnEmptyStackHalts := by
  intro s hstack
  refine ⟨_, execOS_halt hstack, ?_⟩
  simp [hstack, sameDevices, sameOutside]

/-- Settles O29: the fault is taken in the state whose latch OS has cleared. -/
theorem osNonzeroTakesFault : Obligations.OSNonzeroTakesFault := by
  intro sub4 s hsub
  refine ⟨_, execOS_error (nibble_toNat_eq_zero_iff.not.mp hsub), ?_⟩
  simp [sameDevices, sameOutside]

/-- Settles O42: the stack's top is the call's own address. -/
theorem returnResumesAfterTheCall : Obligations.ReturnResumesAfterTheCall := by
  intro op12 s t u ht hstack
  obtain rfl := exec_effect ht
  refine ⟨_, execOS_return hstack, ?_⟩
  simp

/-! ### Devices and illegal nibbles -/

/-- Settles O30: the reading branch, read field by field. -/
theorem ioEvenReadsOneToken : Obligations.IOEvenReadsOneToken := by
  intro sub4 s tok heven htok
  refine ⟨_, execIO_read heven htok, ?_⟩
  simp [sameRunFlags, sameOutside]

/-- Settles O31: the fault is taken in the starting state itself. -/
theorem ioEvenWithoutTokenTakesFault : Obligations.IOEvenWithoutTokenTakesFault := by
  intro sub4 s heven hexhausted
  refine ⟨_, execIO_exhausted heven hexhausted, ?_⟩
  simp [sameDevices, sameOutside]

/-- Settles O32: the writing branch, read field by field. -/
theorem ioOddWritesAccumulator : Obligations.IOOddWritesAccumulator := by
  intro sub4 s hodd
  refine ⟨_, execIO_write hodd, ?_⟩
  simp [sameRunFlags, sameOutside]

/-- Settles O33: the three constructors take the one fault entry. -/
theorem illegalNibbleTakesFault : Obligations.IllegalNibbleTakesFault := by
  intro s low i hi
  refine ⟨takeFault .illegalOpcode s, ?_, by simp [sameDevices, sameOutside]⟩
  rcases hi with rfl | rfl | rfl <;> rfl

end Sys2Proof.Machine
end

section
/-! SUPPORT. The whole-machine rules over all instructions: what an execution can do to each part of the state, and which parts
it reads (10_state.md, 20_memory.md, 30_encoding.md, 60_exceptions.md). -/
namespace Sys2Proof.Machine

/-- Settles O9: every instruction has a next state, and the stopped engine's step is one. -/
theorem everyStepAnswersNextState : Obligations.EveryStepAnswersNextState := by
  intro s
  cases hrunning : s.running with
  | true => rw [step_running hrunning]; exact exec_total _ s
  | false => exact ⟨_, step_stopped hrunning⟩

/-- Settles O34: by the three ways an execution ends. -/
theorem errorSetExactlyByTheFourFaults : Obligations.ErrorSetExactlyByTheFourFaults := by
  intro i s t hclear h
  obtain ⟨hfault, cause, latch, rfl⟩ | ⟨hfault, -, latch, rfl⟩ | ⟨hfault, -, -, herror⟩ := exec_outcome h
  · simp [hfault, sameDevices]
  · simp [hfault]
  · simp [hfault, herror, hclear]

/-- Settles O35: by the three ways an execution ends. -/
theorem runEndsExactlyByHaltOrFault : Obligations.RunEndsExactlyByHaltOrFault := by
  intro i s t hrunning h
  obtain ⟨hfault, cause, latch, rfl⟩ | ⟨hfault, hhalt, latch, rfl⟩ | ⟨hfault, hhalt, hrun, -⟩ := exec_outcome h
  · refine ⟨by simp [hfault], fun hhalt => absurd ?_ hfault⟩
    rcases hhalt with rfl | ⟨rfl, -⟩ <;> rfl
  · simp [hhalt]
  · simp [hfault, hhalt, hrun, hrunning]

/-- Settles O36: by the instruction. -/
theorem latchLife : Obligations.LatchLife := by
  intro i s t h
  have he := exec_effect h
  cases i with
  | jp | add | sub | mult | ld | mm | sc | illegalD | illegalE | illegalF => obtain rfl := he; simp [Instr.op12?, arith_eq]
  | jz | jn | div => obtain ⟨-, rfl⟩ | ⟨-, rfl⟩ := he <;> simp [Instr.op12?, arith_eq]
  | cn n =>
    obtain ⟨rfl, rfl⟩ | ⟨hn, rfl⟩ := he
    · simp [Instr.op12?]
    · simp [Instr.op12?, nibble_toNat_eq_zero_iff.not.mpr hn]
  | os => obtain ⟨-, rfl⟩ | ⟨-, -, rfl⟩ | ⟨-, _, _, -, rfl⟩ := he <;> simp [Instr.op12?]
  | io => obtain ⟨-, rfl⟩ | ⟨-, -, rfl⟩ | ⟨-, _, -, rfl⟩ := he <;> simp [Instr.op12?]

/-- ACC below zero as a signed byte is its bit 7 (00_scope.md R7). -/
theorem byte_toInt_neg_iff (b : Byte) : b.toInt < 0 ↔ b.msb = true := by
  simp [BitVec.msb_eq_toInt]

/-- Settles O37: by the instruction and the branch it takes. -/
theorem programCounterTable : Obligations.ProgramCounterTable := by
  intro i s t h
  have he := exec_effect h
  cases i with
  | jp | sc => obtain rfl := he; simp [resolve_toNat]
  | add | sub | mult | ld | mm | illegalD | illegalE | illegalF => obtain rfl := he; simp [arith_eq]
  | jz a =>
    obtain ⟨hacc, rfl⟩ | ⟨hacc, rfl⟩ := he
    · simp [byte_toNat_eq_zero_iff.mpr hacc, resolve_toNat]
    · simp [byte_toNat_eq_zero_iff.not.mpr hacc]
  | jn a => obtain ⟨hacc, rfl⟩ | ⟨hacc, rfl⟩ := he <;> simp [byte_toInt_neg_iff, hacc, resolve_toNat]
  | cn n =>
    obtain ⟨rfl, rfl⟩ | ⟨hn, rfl⟩ := he
    · simp
    · simp [nibble_toNat_eq_zero_iff.not.mpr hn]
  | div a =>
    obtain ⟨hz, rfl⟩ | ⟨hz, rfl⟩ := he
    · simp [byte_toNat_eq_zero_iff.mpr hz]
    · simp [byte_toNat_eq_zero_iff.not.mpr hz, arith_eq]
  | os n =>
    obtain ⟨hn, rfl⟩ | ⟨rfl, hs, rfl⟩ | ⟨rfl, r, rest, hs, rfl⟩ := he
    · simp [nibble_toNat_eq_zero_iff.not.mpr hn]
    · simp [hs]
    · simp [hs]
  | io n =>
    obtain ⟨hn, rfl⟩ | ⟨hn, hp, rfl⟩ | ⟨hn, tok, ht, rfl⟩ := he
    · simp [hn]
    · simp [hn, hp]
    · have hp : s.input.pos < s.input.tokens.length := (List.getElem?_eq_some_iff.mp ht).1
      simp [hn, Nat.not_le.mpr hp]

/-- Settles O38: memory by `exec_memory`, ACC by the instruction. -/
theorem writersOfMemoryAndAccumulator : Obligations.WritersOfMemoryAndAccumulator := by
  intro i s t h
  refine ⟨fun hnot => ?_, fun hnot hodd => ?_⟩
  · obtain hmem | ⟨a, rfl, -⟩ := exec_memory h
    · exact sameMemory_of_mem_eq hmem
    · exact absurd rfl (hnot a)
  · have he := exec_effect h
    cases i with
    | jp | mm | sc | illegalD | illegalE | illegalF => obtain rfl := he; rfl
    | jz | jn | cn => obtain ⟨-, rfl⟩ | ⟨-, rfl⟩ := he <;> rfl
    | add a | sub a | mult a | div a | ld a => simpa using hnot a
    | os => obtain ⟨-, rfl⟩ | ⟨-, -, rfl⟩ | ⟨-, _, _, -, rfl⟩ := he <;> rfl
    | io n =>
      have hn := hodd n rfl
      obtain ⟨-, rfl⟩ | ⟨heven, -⟩ | ⟨heven, -⟩ := he
      · rfl
      · omega
      · omega

/-- Settles O39: a fault clears the stack, a halt keeps it, and of the other executions only a call and a return touch it. -/
theorem stackChangedOnlyByCallReturnFault : Obligations.StackChangedOnlyByCallReturnFault := by
  intro i s t h
  obtain ⟨hfault, cause, latch, rfl⟩ | ⟨-, -, latch, rfl⟩ | ⟨hfault, hhalt, hflags⟩ := exec_outcome h
  · exact .inr (.inr (.inr ⟨hfault, rfl⟩))
  · exact .inl rfl
  · have he := exec_effect h
    cases i with
    | sc a => obtain rfl := he; exact .inr (.inl ⟨a, rfl, rfl⟩)
    | jp | add | sub | mult | ld | mm => obtain rfl := he; exact .inl rfl
    | jz | jn | cn => obtain ⟨-, rfl⟩ | ⟨-, rfl⟩ := he <;> exact .inl rfl
    | div a =>
      obtain ⟨hz, -⟩ | ⟨-, rfl⟩ := he
      · simp [faultRaised, hz] at hfault
      · exact .inl rfl
    | os n =>
      obtain ⟨hn, -⟩ | ⟨rfl, hs, -⟩ | ⟨rfl, r, rest, hs, rfl⟩ := he
      · exact absurd (by simpa [faultRaised, nibble_toNat_eq_zero_iff] using hfault) hn
      · exact absurd (.inr ⟨rfl, hs⟩) hhalt
      · exact .inr (.inr (.inl ⟨rfl, r, hs⟩))
    | io n =>
      obtain ⟨-, rfl⟩ | ⟨hn, hp, -⟩ | ⟨-, tok, -, rfl⟩ := he
      · exact .inl rfl
      · simp [faultRaised, hn, hp] at hfault
      · exact .inl rfl
    | illegalD | illegalE | illegalF => simp [faultRaised] at hfault

/-- Settles O40: by the three things an execution can do to the streams. -/
theorem devicesChangedOnlyByIO : Obligations.DevicesChangedOnlyByIO := by
  intro i s t h
  obtain ⟨hin, hout⟩ | ⟨n, tok, hi, heven, htok, hacc, hin, hout⟩ | ⟨n, hi, hodd, -, hin, hout⟩ := exec_devices h
  · exact ⟨by rw [hin], .inl (by rw [hin]), .inl hout⟩
  · exact ⟨by rw [hin], .inr ⟨n, hi, heven, by rw [htok, hacc], by rw [hin]⟩, .inl hout⟩
  · exact ⟨by rw [hin], .inl (by rw [hin]), .inr ⟨n, hi, hodd, hout⟩⟩

end Sys2Proof.Machine
end

section
/-! SUPPORT. What an execution reads: states that agree on every engine register but ERROR and OUT are taken to states that
agree there too (10_state.md R10, R15; 00_scope.md R3). -/
namespace Sys2Proof.Machine

/-- Two states agree on everything an instruction may read: every engine register but ERROR and OUT. -/
def agreeOnReads (s s' : State) : Prop :=
  s'.acc = s.acc ∧ s'.pc = s.pc ∧ s'.stack = s.stack ∧ s'.latch = s.latch ∧ s'.running = s.running ∧ s'.mem = s.mem ∧
  s'.input = s.input

/-- ERROR and OUT after two executions: ERROR untouched or set alike, OUT extended alike. -/
def changeAlike (s t s' t' : State) : Prop :=
  ((t.error = s.error ∧ t'.error = s'.error) ∨ t'.error = t.error) ∧
  ∃ written, t.output = s.output ++ written ∧ t'.output = s'.output ++ written

theorem resolve_congr {s s' : State} (hlatch : s'.latch = s.latch) (hmem : s'.mem = s.mem) (op12 : Addr) :
    (resolve op12 s').1 = (resolve op12 s).1 := by
  simp only [resolve, pointerAt, hlatch, memRead_congr hmem]

theorem operandOf_congr {s s' : State} (hlatch : s'.latch = s.latch) (hmem : s'.mem = s.mem) (op12 : Addr) :
    operandOf s' op12 = operandOf s op12 := by
  rw [← memRead_resolve, ← memRead_resolve, resolve_congr hlatch hmem, memRead_congr hmem]

/-- The arithmetic instructions' next state in terms of the byte at the effective address (42_arithmetic.md R85). -/
theorem arith_eq_operandOf (op : Int → Int → Int) (op12 : Addr) (s : State) :
    arith op op12 s =
      ((s.setLatch false).setAcc (trunc8 (op (signed8 s.acc) (signed8 (operandOf s op12))))).setPc (s.pc + 2) := by
  rw [arith_eq, memRead_resolve]

/-- JZ's next state, the condition choosing the value of PC alone (40_jumps.md R71). -/
theorem exec_jz (op12 : Addr) (s : State) :
    exec (.jz op12) s = .next ((s.setLatch false).setPc (if s.acc = 0 then (resolve op12 s).1 else s.pc + 2)) := by
  simp only [exec, execJZ, accZero, beq_iff_eq]
  split <;> rfl

/-- JN's next state, the condition choosing the value of PC alone (R72). -/
theorem exec_jn (op12 : Addr) (s : State) :
    exec (.jn op12) s = .next ((s.setLatch false).setPc (if s.acc.msb then (resolve op12 s).1 else s.pc + 2)) := by
  by_cases hacc : s.acc.msb = true
  · rw [if_pos hacc]
    exact congrArg _ (if_pos hacc)
  · rw [if_neg hacc]
    exact congrArg _ (if_neg hacc)

theorem execCN_arm {s : State} {sub4 : Nibble} (h : sub4 ≠ 0) :
    exec (.cn sub4) s = .next ((s.setLatch true).setPc (s.pc + 1)) := by
  simp only [exec, execCN, h, if_false]
  rfl

/-- The execution of one instruction in two states that agree on what it reads. -/
theorem exec_congr {i : Instr} {s s' t : State} (hagree : agreeOnReads s s') (h : exec i s = .next t) :
    ∃ t', exec i s' = .next t' ∧ agreeOnReads t t' ∧ changeAlike s t s' t' := by
  have he := exec_effect h
  obtain ⟨hacc, hpc, hstack, hlatch, hrunning, hmem, hinput⟩ := hagree
  have hresolve := resolve_congr hlatch hmem
  have hoperand := operandOf_congr hlatch hmem
  cases i with
  | jp | add | sub | mult | ld | mm | sc | illegalD | illegalE | illegalF =>
    obtain rfl := he
    obtain ⟨t', h'⟩ := exec_total _ s'
    refine ⟨t', h', ?_⟩
    obtain rfl := exec_effect h'
    simp [agreeOnReads, changeAlike, arith_eq_operandOf, *]
  | jz a =>
    rw [exec_jz] at h
    cases h
    exact ⟨_, exec_jz a s', by simp [agreeOnReads, changeAlike, *]⟩
  | jn a =>
    rw [exec_jn] at h
    cases h
    exact ⟨_, exec_jn a s', by simp [agreeOnReads, changeAlike, *]⟩
  | cn n =>
    obtain ⟨rfl, rfl⟩ | ⟨hn, rfl⟩ := he
    · exact ⟨_, rfl, by simp [agreeOnReads, changeAlike, *]⟩
    · exact ⟨_, execCN_arm hn, by simp [agreeOnReads, changeAlike, *]⟩
  | div a =>
    obtain ⟨hz, rfl⟩ | ⟨hz, rfl⟩ := he
    · exact ⟨_, execDIV_zero ((hoperand a).trans hz), by simp [agreeOnReads, changeAlike, *]⟩
    · exact ⟨_, execDIV_nonzero ((hoperand a).trans_ne hz), by simp [agreeOnReads, changeAlike, arith_eq_operandOf, *]⟩
  | os n =>
    obtain ⟨hn, rfl⟩ | ⟨rfl, hs, rfl⟩ | ⟨rfl, r, rest, hs, rfl⟩ := he
    · exact ⟨_, execOS_error hn, by simp [agreeOnReads, changeAlike, *]⟩
    · exact ⟨_, execOS_halt (hstack.trans hs), by simp [agreeOnReads, changeAlike, *]⟩
    · exact ⟨_, execOS_return (hstack.trans hs), by simp [agreeOnReads, changeAlike, *]⟩
  | io n =>
    obtain ⟨hn, rfl⟩ | ⟨hn, hp, rfl⟩ | ⟨hn, tok, htok, rfl⟩ := he
    · exact ⟨_, execIO_write hn, by simp [agreeOnReads, changeAlike, *]⟩
    · exact ⟨_, execIO_exhausted hn (by rwa [hinput]), by simp [agreeOnReads, changeAlike, *]⟩
    · exact ⟨_, execIO_read hn (by rwa [hinput]), by simp [agreeOnReads, changeAlike, *]⟩

/-! ### The statements -/

/-- Settles O41: the two executions agree on what instructions read, and neither touches what lies outside the engine. -/
theorem errorAndOutputNeverRead : Obligations.ErrorAndOutputNeverRead := by
  intro i s t e o h
  have hagree : agreeOnReads s ((s.setError e).setOutput o) := ⟨rfl, rfl, rfl, rfl, rfl, rfl, rfl⟩
  obtain ⟨t', h', ⟨hacc, hpc, hstack, hlatch, hrunning, hmem, hinput⟩, -⟩ := exec_congr hagree h
  obtain ⟨hsru, hhost, hreplies⟩ := exec_outside h
  obtain ⟨hsru', hhost', hreplies'⟩ := exec_outside h'
  exact ⟨t', h', State.eq_of_fields hacc hpc hstack hlatch hrunning rfl hmem hinput rfl (hsru'.trans hsru.symm)
    (hhost'.trans hhost.symm) (hreplies'.trans hreplies.symm)⟩

/-- Two engines are equal when all their registers are. -/
theorem Engine.eq_of_fields {e e' : Engine} (hacc : e.acc = e'.acc) (hpc : e.pc = e'.pc) (hstack : e.stack = e'.stack)
    (hlatch : e.latch = e'.latch) (hrunning : e.running = e'.running) (herror : e.error = e'.error) (hmem : e.mem = e'.mem)
    (hinput : e.input = e'.input) (houtput : e.output = e'.output) : e = e' := by
  cases e
  cases e'
  simp_all

/-- A fetch reads the engine alone. -/
theorem fetchInstr_of_toEngine_eq {s s' : State} (h : s'.toEngine = s.toEngine) : fetchInstr s' = fetchInstr s := by
  have hread := memRead_congr (congrArg Engine.mem h)
  exact fetchInstr_congr (congrArg Engine.pc h) (hread _) (hread _)

/-- Settles O12: equal engines agree on what instructions read and on ERROR and OUT too. -/
theorem engineStepDependsOnEngineAlone : Obligations.EngineStepDependsOnEngineAlone := by
  intro s s' hrunning hengine
  have hrunning' : s'.running = true := (congrArg Engine.running hengine).trans hrunning
  have hagree : agreeOnReads s s' := by simp [agreeOnReads, hengine]
  obtain ⟨t, h⟩ := exec_total (fetchInstr s) s
  obtain ⟨t', h', ⟨hacc, hpc, hstack, hlatch, hrun, hmem, hinput⟩, herror, written, hout, hout'⟩ := exec_congr hagree h
  refine ⟨t, t', (step_running hrunning).trans h, ?_, ?_, exec_outside h, exec_outside h'⟩
  · rw [step_running hrunning', fetchInstr_of_toEngine_eq hengine, h']
  · refine Engine.eq_of_fields hacc hpc hstack hlatch hrun ?_ hmem hinput (by rw [hout, hout', hengine])
    rcases herror with ⟨hkept, hkept'⟩ | hsame
    · rw [hkept, hkept', hengine]
    · exact hsame

end Sys2Proof.Machine
end

section
/-! SUPPORT. Steps and runs: what the running engine fetches, the two loops that never end, and the stopped engine
(30_encoding.md R54, 20_memory.md R43, 70_reset_and_hazards.md R190). -/
namespace Sys2Proof.Machine

/-! ### Fetch and step -/

/-- Settles O3: each word is evaluated. -/
theorem specWordsDecodeToTheirInstr : Obligations.SpecWordsDecodeToTheirInstr := by
  unfold Obligations.SpecWordsDecodeToTheirInstr
  decide

/-- The instruction fetched is the one the two bytes at PC decode to (R54). -/
theorem fetchInstr_of_decode {s : State} {i : Instr} {rest : List Byte}
    (h : decode [memRead s s.pc, memRead s (s.pc + 1)] = .ok i rest) : fetchInstr s = i := by
  by_cases hsecond : hasSecondByte (memRead s s.pc) = true
  · simp only [decode, hsecond, if_true] at h
    cases h
    exact if_pos hsecond
  · simp only [decode, hsecond] at h
    cases h
    exact if_neg hsecond

/-- Settles O7: the fetched instruction is the decoded one. -/
theorem stepRunsTheDecodedInstr : Obligations.StepRunsTheDecodedInstr := by
  intro s i rest hrunning hdecode
  rw [step_running hrunning, fetchInstr_of_decode hdecode]

/-- Settles O44: the two bytes at PC are read in the memory MM left, where one of them is the stored one. -/
theorem storeIsSeenByTheNextFetch : Obligations.StoreIsSeenByTheNextFetch := by
  intro op12 s t hwf hrunning ht
  obtain ⟨hstored, hother⟩ := exec_mm_memory hwf ht
  have hnext : ∀ a : Addr, a + 1 ≠ a := by simp
  refine ⟨?_, ?_, fun u i rest hu hmem => ⟨fun hea hdecode => ?_, fun hea hdecode => ?_⟩⟩
  · obtain rfl := exec_effect ht
    exact hrunning
  · obtain rfl := exec_effect ht
    rfl
  · rw [hea] at hstored hother
    have hsecond := hother (u.pc + 1) (hnext u.pc)
    refine stepRunsTheDecodedInstr u i rest hu ?_
    rw [hmem, hmem, hstored, hsecond, hdecode]
  · rw [hea] at hstored hother
    have hfirst := hother u.pc (hnext u.pc).symm
    refine stepRunsTheDecodedInstr u i rest hu ?_
    rw [hmem, hmem, hstored, hfirst, hdecode]

/-! ### Runs -/

theorem run_succ {s t : State} (h : step s = .next t) (n : Nat) : core.run (n + 1) s = core.run n t := by
  have hstep : core.step s = .next t := h
  simp only [Host.Core.run, hstep]

/-- Two stretches of a run, one after the other. -/
theorem run_add {m n : Nat} {s t : State} (h : core.run m s = .next t) : core.run (m + n) s = core.run n t := by
  induction m generalizing s with
  | zero =>
    cases h
    rw [Nat.zero_add]
  | succ m ih =>
    obtain ⟨u, hstep⟩ := everyStepAnswersNextState s
    rw [run_succ hstep] at h
    rw [Nat.succ_add, run_succ hstep, ih h]

/-- Settles O45: the jump's step is the state it started from. -/
theorem jumpToItselfNeverEnds : Obligations.JumpToItselfNeverEnds := by
  intro s hrunning hlatch hfetch n
  have hstep : step s = .next s := by
    obtain ⟨t, ht⟩ := exec_total (.jp s.pc) s
    rw [step_running hrunning, hfetch, ht, exec_effect ht, resolve_direct hlatch, ← hlatch]
    rfl
  induction n with
  | zero => rfl
  | succ n ih => rw [run_succ hstep, ih]

/-- A direct call to its own address pushes that address and changes nothing else (44_subroutine_os.md R95). -/
theorem step_call_to_itself {s : State} (hrunning : s.running = true) (hlatch : s.latch = false)
    (hfetch : fetchInstr s = .sc s.pc) : step s = .next (s.setStack (s.pc :: s.stack)) := by
  rw [step_running hrunning, hfetch, exec_sc, resolve_direct hlatch, ← hlatch]
  rfl

/-- After `n` such calls. -/
theorem run_call_to_itself (n : Nat) {s : State} (hrunning : s.running = true) (hlatch : s.latch = false)
    (hfetch : fetchInstr s = .sc s.pc) : core.run n s = .next (s.setStack (List.replicate n s.pc ++ s.stack)) := by
  induction n generalizing s with
  | zero => rfl
  | succ n ih =>
    have hfetch' : fetchInstr (s.setStack (s.pc :: s.stack)) = .sc s.pc := hfetch
    have hpushed := ih (s := s.setStack (s.pc :: s.stack)) hrunning hlatch hfetch'
    rw [run_succ (step_call_to_itself hrunning hlatch hfetch), hpushed, List.replicate_succ', List.append_assoc]
    rfl

/-- Settles O46: every state of the run is the first with a deeper stack. -/
theorem callToItselfGrowsStackForEver : Obligations.CallToItselfGrowsStackForEver := by
  intro s hrunning herror hlatch hfetch n
  refine ⟨fun k _ t ht => ?_, _, run_call_to_itself n hrunning hlatch hfetch, hrunning, rfl, rfl⟩
  rw [run_call_to_itself k hrunning hlatch hfetch] at ht
  cases ht
  exact herror

/-! ### The stopped engine -/

/-- Settles O8: with no assembly and no command the idle step returns the state. -/
theorem stoppedEngineDoesNothing : Obligations.StoppedEngineDoesNothing := by
  intro s hrunning hphase hhost
  rw [step_stopped hrunning, idleStep, if_pos hphase, hostStep, hhost]

/-- Settles O13: the SRU's step updates the SRU and the replies alone. -/
theorem sruStepLeavesEngineAlone : Obligations.SruStepLeavesEngineAlone := fun s hrunning hphase =>
  ⟨sruStep s, step_sru hrunning hphase, sruStep_toEngine s, sruStep_host s⟩

end Sys2Proof.Machine
end

section
/-! SUPPORT. The canonical form of memory: what a canonical memory reads as determines it (log 12). -/
namespace Sys2Proof.Machine

theorem Memory.lookup_cons_same (k : Nat) (v : Byte) (m : Memory) : Memory.lookup ((k, v) :: m) k = v := by
  simp [Memory.lookup]

theorem Memory.lookup_cons_other {k a : Nat} (h : k ≠ a) (v : Byte) (m : Memory) :
    Memory.lookup ((k, v) :: m) a = Memory.lookup m a := by
  simp [Memory.lookup, h]

/-- Canonical memories that read alike list the same cells. -/
theorem Memory.eq_of_lookup_eq : ∀ {lo : Nat} {m m' : Memory}, Memory.wfFrom lo m = true → Memory.wfFrom lo m' = true →
    (∀ a < 4096, Memory.lookup m a = Memory.lookup m' a) → m = m'
  | _, [], [], _, _, _ => rfl
  | _, (k, v) :: m, [], hwf, _, hread => by
    obtain ⟨-, hk, hv, -⟩ := Memory.wfFrom_cons.mp hwf
    exact absurd (by simpa [Memory.lookup] using hread k hk) hv
  | _, [], (k, v) :: m, _, hwf, hread => by
    obtain ⟨-, hk, hv, -⟩ := Memory.wfFrom_cons.mp hwf
    exact absurd (by simpa [Memory.lookup] using (hread k hk).symm) hv
  | _, (k, v) :: m, (k', v') :: m', hwf, hwf', hread => by
    obtain ⟨-, hk, hv, hm⟩ := Memory.wfFrom_cons.mp hwf
    obtain ⟨-, hk', hv', hm'⟩ := Memory.wfFrom_cons.mp hwf'
    have hfirst := hread k hk
    have hfirst' := hread k' hk'
    rw [Memory.lookup_cons_same] at hfirst hfirst'
    rcases Nat.lt_trichotomy k k' with hlt | rfl | hgt
    · rw [Memory.lookup_cons_other (Nat.ne_of_gt hlt), Memory.lookup_below hm' (Nat.lt_succ_of_lt hlt)] at hfirst
      exact absurd hfirst hv
    · rw [Memory.lookup_cons_same] at hfirst
      subst hfirst
      rw [Memory.eq_of_lookup_eq hm hm' fun a ha => ?_]
      rcases Nat.lt_or_ge k a with hka | hka
      · have hother := hread a ha
        rwa [Memory.lookup_cons_other (Nat.ne_of_lt hka), Memory.lookup_cons_other (Nat.ne_of_lt hka)] at hother
      · rw [Memory.lookup_below hm (Nat.lt_succ_of_le hka), Memory.lookup_below hm' (Nat.lt_succ_of_le hka)]
    · rw [Memory.lookup_cons_other (Nat.ne_of_gt hgt), Memory.lookup_below hm (Nat.lt_succ_of_lt hgt)] at hfirst'
      exact absurd hfirst'.symm hv'

/-- Settles O47: reading alike at every 12-bit address is reading alike below 4096. -/
theorem canonicalMemoriesAreEqualData : Obligations.CanonicalMemoriesAreEqualData := fun m m' hwf hwf' hread =>
  Memory.eq_of_lookup_eq hwf hwf' fun a ha => by simpa [Nat.mod_eq_of_lt ha] using hread (BitVec.ofNat 12 a)

end Sys2Proof.Machine
end

section
/-! SUPPORT. The host's commands, each read off `hostDo`, and the text form of the token streams (70_reset_and_hazards.md R180 to
R185, 45_io.md R103). -/
namespace Sys2Proof.Machine

/-! ### Power-on and run -/

/-- Settles O48: the command's step is the engine as created. -/
theorem powerOnGivesTheIdleState : Obligations.PowerOnGivesTheIdleState := by
  intro s a rest hrunning hphase hhost
  exact ⟨_, step_host hrunning hphase hhost, fun _ => rfl, rfl, rfl, rfl, rfl, rfl, rfl, rfl, rfl, rfl, rfl, rfl⟩

/-- Settles O49: the command's step is five register updates. -/
theorem runStartsTheEngine : Obligations.RunStartsTheEngine := by
  intro s start input rest hrunning hphase hhost
  exact ⟨_, step_host hrunning hphase hhost, BitVec.toNat_ofNat start 12, rfl, rfl, rfl, rfl, rfl, rfl, rfl, rfl,
    sameMemory_of_mem_eq rfl, rfl, rfl, rfl⟩

/-! ### Loading -/

/-- The address of the payload's `k`th byte, with the address field in numbers (20_memory.md R31, R37). -/
theorem addr12_add (hi lo : Byte) (k : Nat) :
    addr12 hi lo + BitVec.ofNat 12 k = BitVec.ofNat 12 (256 * hi.toNat + lo.toNat + k) := by
  apply BitVec.eq_of_toNat_eq
  rw [BitVec.toNat_add, addr12_toNat, BitVec.toNat_ofNat, BitVec.toNat_ofNat]
  omega

/-- A load of a well-formed stream, as updates of the starting state (R184, R185). -/
theorem hostLoad_stream {hi lo len : Byte} {payload : List Byte} (hlength : payload.length = len.toNat) (cc : Byte)
    (s : State) :
    hostLoad (hi :: lo :: len :: payload ++ [cc]) s =
      addReply (s.setMem (Memory.storeList s.mem (addr12 hi lo) payload))
        (.loaded (cc == checksum (hi :: lo :: len :: payload))) := by
  rw [hostLoad, loadObject_stream hi lo len cc payload s.mem hlength]

theorem checksum_beq (cc : Byte) (bs : List Byte) :
    (cc == checksum bs) = decide (cc.toNat = (bs.map BitVec.toNat).sum % 256) := by
  rw [← checksum_toNat, beq_eq_decide]
  exact decide_eq_decide.mpr BitVec.toNat_inj.symm

/-- Settles O50: the payload's cells by the law of consecutive stores, the others by its frame. -/
theorem loadPlacesThePayload : Obligations.LoadPlacesThePayload := by
  intro s hi lo len cc payload rest hrunning hphase hwf hlength hhost
  refine ⟨_, step_host hrunning hphase hhost, ?_⟩
  rw [hostDo, hostLoad_stream hlength]
  have hfits : payload.length ≤ 4096 := by
    have hlen := len.isLt
    omega
  refine ⟨fun k b hb => ?_, fun a ha => ?_, ?_, rfl, rfl, rfl, rfl, ⟨rfl, rfl⟩, ⟨rfl, rfl⟩, rfl, rfl⟩
  · rw [← addr12_add]
    exact Memory.lookup_storeList_same payload s.mem (addr12 hi lo) hwf hfits k b hb
  · refine Memory.lookup_storeList_other payload s.mem (addr12 hi lo) a fun k hk => ?_
    rw [addr12_add]
    exact ha k hk
  · simp [addReply, checksum_beq, Nat.add_assoc]

/-- Settles O51: the load is refused, which leaves a reply alone. -/
theorem loadRefusesMalformedStream : Obligations.LoadRefusesMalformedStream := by
  intro s obj rest hrunning hphase hhost hlength
  refine ⟨_, step_host hrunning hphase hhost, ?_⟩
  rw [hostDo, hostLoad, loadObject_refused hlength]
  exact ⟨rfl, rfl, rfl, rfl⟩

/-! ### Poking, peeking, observing -/

/-- Settles O52: each command by its own update. -/
theorem pokePeekAndObserve : Obligations.PokePeekAndObserve := by
  intro s a v rest hrunning hphase
  have hmasked : BitVec.ofNat 12 (a % 4096) = BitVec.ofNat 12 a := by
    apply BitVec.eq_of_toNat_eq
    simp
  rw [hmasked]
  refine ⟨fun hwf hhost => ?_, fun hhost => ?_, fun hhost => ?_⟩
  · refine ⟨_, step_host hrunning hphase hhost, ?_, fun x hx => memRead_memWrite_other hx, rfl, rfl, rfl, rfl, ⟨rfl, rfl⟩,
      ⟨rfl, rfl⟩, rfl, rfl, rfl⟩
    have hread := memRead_memWrite_same (s := s.setHost rest) (a := BitVec.ofNat 12 a) (v := BitVec.ofNat 8 v) hwf
    rw [hostDo, hostPoke, hread]
    exact BitVec.toNat_ofNat v 8
  · exact ⟨_, step_host hrunning hphase hhost, rfl, rfl, rfl, rfl⟩
  · exact ⟨_, step_host hrunning hphase hhost, rfl, rfl, rfl, rfl⟩

/-! ### The text of a token stream -/

/-- Parsing takes one rendered token and its delimiter off the front. -/
theorem parseFrom_tokenText (delim : List Char) (fuel : Nat) (b : Byte) (text : List Char) :
    parseFrom delim (fuel + 1) (tokenText b ++ delim ++ text) =
      if (delim ++ text).isEmpty then some [b] else (parseFrom delim fuel text).map (b :: ·) := by
  simp only [tokenText, List.cons_append, List.nil_append, parseFrom, textDigit_hexChar, dropText_append, byte_of_nibbles]

/-- With fuel for every character the rendered text is parsed to its end. -/
theorem parseFrom_renderTokens (delim : List Char) (bs : List Byte) :
    ∀ fuel, (renderTokens delim bs).length ≤ fuel → parseFrom delim fuel (renderTokens delim bs) = some bs := by
  induction bs with
  | nil =>
    intro fuel _
    cases fuel <;> rfl
  | cons b bs ih =>
    intro fuel hfuel
    simp only [renderTokens, List.length_append, tokenText, List.length_cons, List.length_nil] at hfuel
    obtain ⟨fuel, rfl⟩ : ∃ n, fuel = n + 1 := ⟨fuel - 1, by omega⟩
    rw [renderTokens, parseFrom_tokenText, ih fuel (by omega)]
    split
    · rename_i hempty
      cases bs with
      | nil => rfl
      | cons c cs => simp [renderTokens, tokenText] at hempty
    · rfl

/-- Settles O59: the text's own length is fuel enough. -/
theorem tokenTextRoundTrip : Obligations.TokenTextRoundTrip := fun delim bs =>
  parseFrom_renderTokens delim bs _ (Nat.le_refl _)

end Sys2Proof.Machine
end

section
/-! SUPPORT. One line of a source in each pass, by the form of the line (46_assembler_symbol_resolution.md R112 to R126). -/
namespace Sys2Proof.Machine

/-! ### Names -/

theorem catalogByName_of_mem : ∀ row ∈ catalog, catalogByName row.name = some row := by decide

/-- No mnemonic is spelled as a pseudo-instruction (R113, R115, R117, R118). -/
theorem name_ne_pseudo : ∀ row ∈ catalog, row.name ≠ tokOrigin ∧ row.name ≠ tokEnd := by decide

theorem catalogByName_none {name : Token} (h : ∀ row ∈ catalog, name ≠ row.name) : catalogByName name = none :=
  List.find?_eq_none.mpr fun row hrow => by simpa using (h row hrow).symm

theorem catalogByName_pseudo : catalogByName tokOrigin = none ∧ catalogByName tokEnd = none := by decide

/-! ### The three forms of a line (R112) -/

section
variable {text : Line} {t1 : Token} {ts : List Token} (r : Sru)

theorem pass1Line_blank (htokens : tokens text = []) : pass1Line r text = .next r := by
  simp [pass1Line, htokens]

theorem pass1Line_label (htokens : tokens text = t1 :: ts) (hlabel : isLabelLine text = true) :
    pass1Line r text = pass1Label r t1 ts := by
  simp [pass1Line, htokens, hlabel]

theorem pass1Line_statement (htokens : tokens text = t1 :: ts) (hstatement : isLabelLine text = false) :
    pass1Line r text = pass1Statement r t1 ts := by
  simp [pass1Line, htokens, hstatement]

theorem pass2Line_blank (htokens : tokens text = []) : pass2Line r text = .next r := by
  simp [pass2Line, htokens]

theorem pass2Line_label (htokens : tokens text = t1 :: ts) (hlabel : isLabelLine text = true) :
    pass2Line r text = pass2Label r ts := by
  simp [pass2Line, htokens, hlabel]

theorem pass2Line_statement (htokens : tokens text = t1 :: ts) (hstatement : isLabelLine text = false) :
    pass2Line r text = pass2Statement r t1 ts := by
  simp [pass2Line, htokens, hstatement]

end

/-! ### Pass 1 -/

/-- A declared name is bound to CURSOR, and no other name is touched (R114). -/
theorem bindsOnly_declare (r : Sru) (name : Token) : bindsOnly name r.cursor r (r.declare name) := by
  refine ⟨by simp [Sru.declare, symLookup], fun n hn => ?_⟩
  simp [Sru.declare, symLookup, Ne.symm hn]

theorem Sru.reserve_cursor (r : Sru) (size : Nat) : (r.reserve size).cursor.toNat = (r.cursor.toNat + size) % 4096 := by
  simp [Sru.reserve]

section
variable {r : Sru} {name : Token} (hfree : isReserved name = false) (hnew : symLookup r.symtab name = none)
include hfree hnew

/-- A code label, a Constant's label and a label line of no known form, the name being new and unreserved (R114 to R116). -/
theorem pass1Label_code : pass1Label r name [] = .next (r.declare name) := by
  simp [pass1Label, hfree, hnew]

theorem pass1Label_constant (extra : List Token) :
    pass1Label r name (tokConstant :: extra) = .next ((r.declare name).reserve 1) := by
  simp [pass1Label, hfree, hnew]

theorem pass1Label_badLabelDirective {t2 : Token} (h : t2 ≠ tokConstant) (extra : List Token) :
    pass1Label r name (t2 :: extra) = .error .badLabelDirective r.line := by
  simp [pass1Label, hfree, hnew, h]

end

/-- An instruction line moves CURSOR and COUNT by its row's size (R119). -/
theorem pass1Statement_instruction {row : CatalogRow} (hrow : row ∈ catalog) (r : Sru) (ts : List Token) :
    pass1Statement r row.name ts = .next (r.reserve row.size) := by
  obtain ⟨horigin, hend⟩ := name_ne_pseudo row hrow
  simp [pass1Statement, horigin, hend, catalogByName_of_mem row hrow]

/-- Settles O60: by the form of the line, then by its first tokens. -/
theorem pass1BindsLabelsAndMovesCursor : Obligations.Pass1BindsLabelsAndMovesCursor := by
  intro r text
  refine ⟨pass1Line_blank r, fun t1 ts htokens hlabel hrow horigin hend hconstant => ?_,
    fun t1 ts htokens hstatement => ?_⟩
  · have hfree : isReserved t1 = false := by
      rw [← Bool.not_eq_true, isReserved_iff]
      rintro (⟨row, hmem, hname⟩ | hname | hname | hname)
      · exact hrow row hmem hname
      · exact horigin hname
      · exact hend hname
      · exact hconstant hname
    rw [pass1Line_label r htokens hlabel]
    refine ⟨fun a hbound => by simp [pass1Label, hfree, hbound], fun hnew => ?_⟩
    refine ⟨?_, fun hhead => ?_, fun t2 hhead hne => ?_⟩
    · rintro rfl
      exact ⟨_, pass1Label_code hfree hnew, bindsOnly_declare r t1, rfl, rfl, rfl, rfl, rfl, rfl, rfl⟩
    · obtain ⟨extra, rfl⟩ := List.head?_eq_some_iff.mp hhead
      exact ⟨_, pass1Label_constant hfree hnew extra, bindsOnly_declare r t1, Sru.reserve_cursor _ 1, rfl, rfl, rfl, rfl, rfl,
        rfl⟩
    · obtain ⟨extra, rfl⟩ := List.head?_eq_some_iff.mp hhead
      exact pass1Label_badLabelDirective hfree hnew hne extra
  · rw [pass1Line_statement r htokens hstatement]
    refine ⟨?_, ?_, ?_, ?_, fun horigin hend hrow => ?_⟩
    · rintro rfl t2 v hhead hvalue
      obtain ⟨extra, rfl⟩ := List.head?_eq_some_iff.mp hhead
      refine ⟨{ r with cursor := BitVec.ofNat 12 v }, ?_, BitVec.toNat_ofNat v 12, rfl, rfl, rfl, rfl, rfl, rfl, rfl⟩
      simp [pass1Statement, tokOrigin, hvalue]
    · rintro rfl hoperand
      cases ts with
      | nil => rfl
      | cons t2 extra => simp [pass1Statement, tokOrigin, hoperand t2 rfl]
    · rintro rfl
      rfl
    · rintro row hrow rfl
      exact ⟨_, pass1Statement_instruction hrow r ts, Sru.reserve_cursor r row.size, rfl, rfl, rfl, rfl, rfl, rfl, rfl⟩
    · simp [pass1Statement, tokOrigin, tokEnd, horigin, hend, catalogByName_none hrow]

/-- Settles O58: the lines before are walked first, and their number is LINE's. -/
theorem reservedFirstLabelRefused : Obligations.ReservedFirstLabelRefused := by
  intro text name hlabel hname hreserved
  have hrefused := pass1Line_reservedName hlabel hname (isReserved_iff.mpr hreserved)
  refine ⟨hrefused, fun before rest r hbefore hend => ?_⟩
  obtain ⟨hwalk, hline⟩ := pass1_append (text :: rest) hbefore hend
  have hnumber : r.line = before.length := by simpa [Sru.start, Sru.idle] using hline
  rw [assemble, hwalk, pass1, hrefused]
  simp [Sru.nextLine, hnumber]

/-! ### Pass 2 -/

/-- A number that fits a byte is the byte's value. -/
theorem byte_ofNat_toNat {n : Nat} (h : n ≤ 255) : (BitVec.ofNat 8 n).toNat = n :=
  (BitVec.toNat_ofNat n 8).trans (Nat.mod_eq_of_lt (Nat.lt_succ_of_le h))

/-- A Constant with a value that fits a byte emits that byte (R115). -/
theorem pass2Label_constant {r : Sru} {t2 t3 : Token} {v : Nat} (hvalue : hexValue t3 = some v) (hfits : v ≤ 255) :
    pass2Label r [t2, t3] = .next (r.emitList [BitVec.ofNat 8 v]) := by
  simp [pass2Label, hvalue, Nat.not_lt.mpr hfits, Sru.emitList]

/-- An instruction line with one operand token emits its bytes with the token's value (R119, R126). -/
theorem pass2Statement_resolved {row : CatalogRow} (hrow : row ∈ catalog) {r : Sru} {tok : Token} {v : Addr}
    (h : resolveToken r.symtab tok = some v) : pass2Statement r row.name [tok] = .next (r.emitList (encodeRow row v)) := by
  obtain ⟨horigin, hend⟩ := name_ne_pseudo row hrow
  simp [pass2Statement, horigin, hend, catalogByName_of_mem row hrow, h]

theorem pass2Statement_unresolved {row : CatalogRow} (hrow : row ∈ catalog) {r : Sru} {tok : Token}
    (h : resolveToken r.symtab tok = none) : pass2Statement r row.name [tok] = .error .unresolvedOperand r.line := by
  obtain ⟨horigin, hend⟩ := name_ne_pseudo row hrow
  simp [pass2Statement, horigin, hend, catalogByName_of_mem row hrow, h]

/-- ResolveOperand takes a label first, then a hex literal reduced to 12 bits (R126). -/
theorem resolveToken_label {tab : List (Token × Addr)} {tok : Token} {a : Addr} (h : symLookup tab tok = some a) :
    resolveToken tab tok = some a := by
  simp [resolveToken, h]

theorem resolveToken_literal {tab : List (Token × Addr)} {tok : Token} (h : symLookup tab tok = none) :
    resolveToken tab tok = (hexValue tok).map (BitVec.ofNat 12) := by
  simp [resolveToken, h]

/-- Settles O53: by the form of the line, then by the number of its tokens and what they spell. -/
theorem operandMeansLabelFirst : Obligations.OperandMeansLabelFirst := by
  intro r text
  refine ⟨pass2Line_blank r, fun name htokens hlabel => ?_, fun name ts htokens hlabel => ?_,
    fun ts htokens hstatement => ?_, fun ts htokens hstatement => ?_, fun row hrow ts htokens hstatement => ?_⟩
  · rw [pass2Line_label r htokens hlabel]
    rfl
  · rw [pass2Line_label r htokens hlabel]
    refine ⟨by rintro rfl; rfl, ?_⟩
    rintro t3 extra rfl
    refine ⟨fun hvalue => by simp [pass2Label, hvalue], fun v hvalue => ⟨fun hlarge => ?_, fun hfits hextra => ?_, ?_⟩⟩
    · simp [pass2Label, hvalue, hlarge]
    · simp [pass2Label, hvalue, Nat.not_lt.mpr hfits, hextra]
    · rintro hfits rfl
      exact ⟨_, BitVec.ofNat 8 v, pass2Label_constant hvalue hfits, emits_emitList r _,
        byte_ofNat_toNat hfits⟩
  · rw [pass2Line_statement r htokens hstatement]
    cases ts <;> simp [pass2Statement, tokEnd]
  · rw [pass2Line_statement r htokens hstatement]
    simp only [pass2Statement, tokEnd, tokOrigin, ← Nat.not_lt]
    by_cases hextra : 1 < ts.length <;> simp [hextra]
  · rw [pass2Line_statement r htokens hstatement]
    obtain ⟨horigin, hend⟩ := name_ne_pseudo row hrow
    have hname := catalogByName_of_mem row hrow
    refine ⟨?_, fun hextra => ?_, ?_⟩
    · rintro rfl
      simp [pass2Statement, horigin, hend, hname]
    · match ts with
      | _ :: _ :: _ => simp [pass2Statement, horigin, hend, hname]
    · rintro tok rfl
      refine ⟨fun a hlabel => ?_, fun v hlabel hvalue => ?_, fun hlabel hvalue => ?_⟩
      · have hresolved := resolveToken_label hlabel
        exact ⟨hresolved, _, pass2Statement_resolved hrow hresolved, emits_emitList r _⟩
      · have hresolved : resolveToken r.symtab tok = some (BitVec.ofNat 12 v) := by
          rw [resolveToken_literal hlabel, hvalue, Option.map_some]
        exact ⟨_, _, BitVec.toNat_ofNat v 12, hresolved, pass2Statement_resolved hrow hresolved, emits_emitList r _⟩
      · exact pass2Statement_unresolved hrow (by rw [resolveToken_literal hlabel, hvalue, Option.map_none])

end Sys2Proof.Machine
end

section
/-! SUPPORT. The object stream: both passes count the same bytes, line by line, so the length byte is the payload's and the
stream loads (46_assembler_symbol_resolution.md R119, R125, R127, R128). -/
namespace Sys2Proof.Machine

/-! ### How many bytes a source stands for -/

/-- An End line, where both passes stop (R118). -/
def isEndLine (text : Line) : Bool := !isLabelLine text && (tokens text).head? == some tokEnd

/-- The bytes one line stands for: a Constant one, an instruction line its size, any other line none (R114 to R119). -/
def lineBytes (text : Line) : Nat :=
  match tokens text with
  | [] => 0
  | t1 :: ts =>
    if isLabelLine text then if ts.isEmpty then 0 else 1
    else
      match catalogByName t1 with
      | some row => row.size
      | none => 0

/-- The bytes the lines up to the End line stand for. -/
def payloadBytes : List Line → Nat
  | [] => 0
  | text :: rest => if isEndLine text then 0 else lineBytes text + payloadBytes rest

section
variable {text : Line} {t1 : Token} {ts : List Token}

theorem lineBytes_blank (htokens : tokens text = []) : lineBytes text = 0 := by
  simp [lineBytes, htokens]

theorem lineBytes_label (htokens : tokens text = t1 :: ts) (hlabel : isLabelLine text = true) :
    lineBytes text = if ts.isEmpty then 0 else 1 := by
  simp [lineBytes, htokens, hlabel]

theorem lineBytes_instruction (htokens : tokens text = t1 :: ts) (hstatement : isLabelLine text = false) {row : CatalogRow}
    (hrow : catalogByName t1 = some row) : lineBytes text = row.size := by
  simp [lineBytes, htokens, hstatement, hrow]

theorem lineBytes_origin (htokens : tokens text = tokOrigin :: ts) (hstatement : isLabelLine text = false) :
    lineBytes text = 0 := by
  simp [lineBytes, htokens, hstatement, catalogByName_pseudo.1]

theorem isEndLine_blank (htokens : tokens text = []) : isEndLine text = false := by
  simp [isEndLine, htokens]

theorem isEndLine_label (hlabel : isLabelLine text = true) : isEndLine text = false := by
  simp [isEndLine, hlabel]

theorem isEndLine_statement (htokens : tokens text = t1 :: ts) (hstatement : isLabelLine text = false) :
    isEndLine text = decide (t1 = tokEnd) := by
  simp [isEndLine, htokens, hstatement, beq_eq_decide]

end

/-! ### Pass 1 counts them -/

theorem pass1Label_next_count {r r' : Sru} {name : Token} {ts : List Token} (h : pass1Label r name ts = .next r') :
    r'.count = r.count + if ts.isEmpty then 0 else 1 := by
  unfold pass1Label at h
  split at h
  · cases h
  · split at h
    · cases h
    · cases ts with
      | nil => cases h; rfl
      | cons t2 extra =>
        simp only at h
        split at h
        · cases h; rfl
        · cases h

/-- A line that pass 1 goes on from is no End line, and COUNT has grown by the line's bytes. -/
theorem pass1Line_next_count {r r' : Sru} {text : Line} (h : pass1Line r text = .next r') :
    isEndLine text = false ∧ r'.count = r.count + lineBytes text := by
  cases htokens : tokens text with
  | nil =>
    rw [pass1Line_blank r htokens] at h
    cases h
    exact ⟨isEndLine_blank htokens, by rw [lineBytes_blank htokens]; rfl⟩
  | cons t1 ts =>
    cases hlabel : isLabelLine text with
    | true =>
      rw [pass1Line_label r htokens hlabel] at h
      exact ⟨isEndLine_label hlabel, by rw [pass1Label_next_count h, lineBytes_label htokens hlabel]⟩
    | false =>
      rw [pass1Line_statement r htokens hlabel] at h
      rw [isEndLine_statement htokens hlabel, decide_eq_false_iff_not]
      unfold pass1Statement at h
      split at h
      · rename_i horigin
        subst horigin
        rw [lineBytes_origin htokens hlabel]
        refine ⟨by decide, ?_⟩
        split at h
        · cases h
        · split at h
          · cases h; rfl
          · cases h
      · split at h
        · cases h
        · rename_i hend
          split at h
          · rename_i row hrow
            cases h
            exact ⟨hend, by rw [lineBytes_instruction htokens hlabel hrow]; rfl⟩
          · cases h

theorem pass1Line_finish_isEndLine {r r' : Sru} {text : Line} (h : pass1Line r text = .finish r') :
    isEndLine text = true := by
  obtain ⟨hstatement, hhead⟩ := pass1Line_finish_end h
  simp [isEndLine, hstatement, hhead]

theorem pass1_finish_count {lines : List Line} {r r' : Sru} (h : pass1 lines r = .finish r') :
    r'.count = r.count + payloadBytes lines := by
  induction lines generalizing r with
  | nil => cases h; rfl
  | cons text rest ih =>
    rw [pass1] at h
    cases hline : pass1Line r.nextLine text with
    | next r1 =>
      rw [hline] at h
      obtain ⟨hend, hcount⟩ := pass1Line_next_count hline
      rw [ih h, hcount, payloadBytes, hend, Sru.nextLine, Nat.add_assoc]
      rfl
    | finish r1 =>
      rw [hline] at h
      cases h
      rw [pass1Line_finish hline, payloadBytes, pass1Line_finish_isEndLine hline]
      rfl
    | error e n => rw [hline] at h; cases h

/-! ### Pass 2 emits as many -/

theorem pass2Label_next_bytes {r r' : Sru} {ts : List Token} (h : pass2Label r ts = .next r') :
    ∃ bs, r' = r.emitList bs ∧ bs.length = if ts.isEmpty then 0 else 1 := by
  match ts with
  | [] => cases h; exact ⟨[], rfl, rfl⟩
  | [_] => cases h
  | _ :: t3 :: extra =>
    simp only [pass2Label] at h
    split at h
    · cases h
    · rename_i v hvalue
      split at h
      · cases h
      · split at h
        · cases h
        · cases h
          exact ⟨[BitVec.ofNat 8 v], rfl, rfl⟩

/-- A statement line that pass 2 goes on from is an Origin line or an instruction line with a resolved operand. -/
theorem pass2Statement_next {r r' : Sru} {t1 : Token} {ts : List Token} (h : pass2Statement r t1 ts = .next r') :
    t1 ≠ tokEnd ∧
      ((t1 = tokOrigin ∧ r' = r) ∨ ∃ row v, catalogByName t1 = some row ∧ r' = r.emitList (encodeRow row v)) := by
  unfold pass2Statement at h
  split at h
  · split at h <;> cases h
  · rename_i hend
    refine ⟨hend, ?_⟩
    split at h
    · rename_i horigin
      split at h
      · cases h
      · cases h
        exact .inl ⟨horigin, rfl⟩
    · split at h
      · cases h
      · rename_i row hrow
        split at h
        · cases h
        · split at h
          · rename_i v hv
            cases h
            exact .inr ⟨row, v, hrow, rfl⟩
          · cases h
        · cases h

/-- A line that pass 2 goes on from is no End line, and the line's bytes have been emitted. -/
theorem pass2Line_next_bytes {r r' : Sru} {text : Line} (h : pass2Line r text = .next r') :
    isEndLine text = false ∧ ∃ bs, r' = r.emitList bs ∧ bs.length = lineBytes text := by
  cases htokens : tokens text with
  | nil =>
    rw [pass2Line_blank r htokens] at h
    cases h
    exact ⟨isEndLine_blank htokens, [], rfl, (lineBytes_blank htokens).symm⟩
  | cons t1 ts =>
    cases hlabel : isLabelLine text with
    | true =>
      rw [pass2Line_label r htokens hlabel] at h
      rw [lineBytes_label htokens hlabel]
      exact ⟨isEndLine_label hlabel, pass2Label_next_bytes h⟩
    | false =>
      rw [pass2Line_statement r htokens hlabel] at h
      rw [isEndLine_statement htokens hlabel, decide_eq_false_iff_not]
      obtain ⟨hend, ⟨rfl, rfl⟩ | ⟨row, v, hrow, rfl⟩⟩ := pass2Statement_next h
      · exact ⟨hend, [], rfl, (lineBytes_origin htokens hlabel).symm⟩
      · exact ⟨hend, _, rfl, by rw [encodeRow_length hrow, lineBytes_instruction htokens hlabel hrow]⟩

theorem pass2Line_finish_isEndLine {r r' : Sru} {text : Line} (h : pass2Line r text = .finish r') :
    isEndLine text = true := by
  cases htokens : tokens text with
  | nil => rw [pass2Line_blank r htokens] at h; cases h
  | cons t1 ts =>
    cases hlabel : isLabelLine text with
    | true =>
      rw [pass2Line_label r htokens hlabel] at h
      unfold pass2Label at h
      repeat' split at h
      all_goals cases h
    | false =>
      rw [pass2Line_statement r htokens hlabel] at h
      rw [isEndLine_statement htokens hlabel, decide_eq_true_eq]
      unfold pass2Statement at h
      split at h
      · assumption
      · repeat' split at h
        all_goals cases h

/-- An emission keeps CHK the checksum of OBJ (R127). -/
theorem Sru.emitList_checksum {r : Sru} (h : r.chk = checksum r.obj) (bs : List Byte) :
    (r.emitList bs).chk = checksum (r.emitList bs).obj := by
  apply BitVec.eq_of_toNat_eq
  rw [Sru.emitList_chk, h, checksum_toNat, checksum_toNat, Sru.emitList_obj, List.map_append, List.sum_append,
    Nat.mod_add_mod]

/-- A finished pass 2 has appended the lines' bytes to OBJ, and CHK is still the checksum. -/
theorem pass2_finish_bytes {lines : List Line} {r r' : Sru} (h : pass2 lines r = .finish r') (hchk : r.chk = checksum r.obj) :
    r'.chk = checksum r'.obj ∧ ∃ bs, r'.obj = r.obj ++ bs ∧ bs.length = payloadBytes lines := by
  induction lines generalizing r with
  | nil => cases h; exact ⟨hchk, [], (List.append_nil _).symm, rfl⟩
  | cons text rest ih =>
    rw [pass2] at h
    cases hline : pass2Line r.nextLine text with
    | next r1 =>
      rw [hline] at h
      obtain ⟨hend, bs, rfl, hbytes⟩ := pass2Line_next_bytes hline
      obtain ⟨hchk', more, hobj, hmore⟩ := ih h (Sru.emitList_checksum (r := r.nextLine) hchk bs)
      refine ⟨hchk', bs ++ more, ?_, ?_⟩
      · rw [hobj, Sru.emitList_obj, List.append_assoc]
        rfl
      · rw [List.length_append, hbytes, hmore, payloadBytes, hend]
        rfl
    | finish r1 =>
      rw [hline] at h
      cases h
      rw [pass2Line_finish hline]
      exact ⟨hchk, [], (List.append_nil _).symm, by rw [payloadBytes, pass2Line_finish_isEndLine hline]; rfl⟩
    | error e n => rw [hline] at h; cases h

/-! ### The whole assembly -/

theorem pass1_ne_next {lines : List Line} {r r' : Sru} : pass1 lines r ≠ .next r' := by
  induction lines generalizing r with
  | nil => exact fun h => nomatch h
  | cons text rest ih =>
    rw [pass1]
    cases pass1Line r.nextLine text with
    | next r1 => exact ih
    | finish r1 => exact fun h => nomatch h
    | error e n => exact fun h => nomatch h

theorem pass2_ne_next {lines : List Line} {r r' : Sru} : pass2 lines r ≠ .next r' := by
  induction lines generalizing r with
  | nil => exact fun h => nomatch h
  | cons text rest ih =>
    rw [pass2]
    cases pass2Line r.nextLine text with
    | next r1 => exact ih
    | finish r1 => exact fun h => nomatch h
    | error e n => exact fun h => nomatch h

/-- What pass 2 over the lines hands out: the object stream, or the error. -/
def LineResult.toObject : LineResult → SruResult
  | .error e n => .error e n
  | .next r | .finish r => .object r.objectStream

theorem assemblePass2_of_header {r r' : Sru} (h : emitHeader r.beginPass2 = .next r') :
    assemblePass2 r = (pass2 r'.source.tail r').toObject := by
  simp only [assemblePass2, h]
  cases pass2 r'.source.tail r' <;> rfl

theorem assemblePass2_of_error {r : Sru} {e : SruError} {n : Nat} (h : emitHeader r.beginPass2 = .error e n) :
    assemblePass2 r = .error e n := by
  simp only [assemblePass2, h]

theorem assemble_of_finish {source : List Line} {r : Sru} (h : pass1 source (Sru.start source) = .finish r) :
    assemble source = assemblePass2 r := by
  simp only [assemble, h]

theorem assemble_of_error {source : List Line} {e : SruError} {n : Nat}
    (h : pass1 source (Sru.start source) = .error e n) : assemble source = .error e n := by
  simp only [assemble, h]

/-- An accepted source has gone through both passes and the header between them. -/
theorem assemble_object {source : List Line} {obj : List Byte} (h : assemble source = .object obj) :
    ∃ r r1 r2, pass1 source (Sru.start source) = .finish r ∧ emitHeader r.beginPass2 = .next r1 ∧
      pass2 r1.source.tail r1 = .finish r2 ∧ obj = r2.objectStream := by
  cases hpass1 : pass1 source (Sru.start source) with
  | next r => exact absurd hpass1 pass1_ne_next
  | error e n => rw [assemble_of_error hpass1] at h; cases h
  | finish r =>
    rw [assemble_of_finish hpass1] at h
    cases hheader : emitHeader r.beginPass2 with
    | finish r1 => exact absurd hheader emitHeader_not_finish
    | error e n => rw [assemblePass2_of_error hheader] at h; cases h
    | next r1 =>
      rw [assemblePass2_of_header hheader] at h
      cases hpass2 : pass2 r1.source.tail r1 with
      | next r2 => exact absurd hpass2 pass2_ne_next
      | error e n => rw [hpass2] at h; cases h
      | finish r2 =>
        rw [hpass2] at h
        cases h
        exact ⟨r, r1, r2, rfl, hheader, hpass2, rfl⟩

/-- The object stream of an accepted source: line 1's Origin operand in two bytes, the payload's length in one, the payload and
the checksum of all before it (R122, R125, R127, R128). -/
theorem assemble_stream {source : List Line} {obj : List Byte} (h : assemble source = .object obj) :
    ∃ text rest t2 v payload, source = text :: rest ∧ isLabelLine text = false ∧ tokens text = [tokOrigin, t2] ∧
      hexValue t2 = some v ∧ payload.length ≤ 255 ∧
      obj = BitVec.ofNat 8 (v % 4096 / 256) :: BitVec.ofNat 8 v :: BitVec.ofNat 8 payload.length :: payload ++
        [checksum (BitVec.ofNat 8 (v % 4096 / 256) :: BitVec.ofNat 8 v :: BitVec.ofNat 8 payload.length :: payload)] := by
  obtain ⟨r, r1, r2, hpass1, hheader, hpass2, rfl⟩ := assemble_object h
  obtain ⟨text, rest, t2, v, hsource, hstatement, htokens, hvalue, hcount, rfl⟩ := emitHeader_next hheader
  have hsource' : source = text :: rest := (pass1_finish_source hpass1).symm.trans hsource
  have hpayload : r.count = payloadBytes rest := by
    have hend : isEndLine text = false := by
      rw [isEndLine_statement htokens hstatement]
      rfl
    rw [pass1_finish_count hpass1, hsource', payloadBytes, hend, lineBytes_origin htokens hstatement]
    simp [Sru.start, Sru.idle]
  rw [Sru.emitList_source, hsource] at hpass2
  obtain ⟨hchk, payload, hobj, hlength⟩ := pass2_finish_bytes hpass2 (Sru.emitList_checksum rfl _)
  have hbytes : r2.obj = BitVec.ofNat 8 (v % 4096 / 256) :: BitVec.ofNat 8 v :: BitVec.ofNat 8 payload.length :: payload := by
    rw [hobj, Sru.emitList_obj, hlength, List.tail_cons, ← hpayload]
    rfl
  refine ⟨text, rest, t2, v, payload, hsource', hstatement, htokens, hvalue, ?_, ?_⟩
  · rw [hlength, List.tail_cons, ← hpayload]
    exact hcount
  · rw [Sru.objectStream, hchk, hbytes]

/-- Settles O54: the numbers of the stream's bytes. -/
theorem objectStreamLayoutAndChecksum : Obligations.ObjectStreamLayoutAndChecksum := by
  intro source obj h
  obtain ⟨text, rest, t2, v, payload, hsource, hstatement, htokens, hvalue, hlength, rfl⟩ := assemble_stream h
  have hlen := (byte_ofNat_toNat hlength).symm
  have hhi : (BitVec.ofNat 8 (v % 4096 / 256)).toNat = v % 4096 / 256 := byte_ofNat_toNat (by omega)
  have hlo : (BitVec.ofNat 8 v).toNat = v % 256 := BitVec.toNat_ofNat v 8
  have hcc := checksum_toNat
    (BitVec.ofNat 8 (v % 4096 / 256) :: BitVec.ofNat 8 v :: BitVec.ofNat 8 payload.length :: payload)
  refine ⟨_, _, _, _, payload, rfl, by omega, ⟨text, rest, t2, v, hsource, hstatement, htokens, hvalue, by omega⟩, hlen,
    hcc, ?_⟩
  rw [List.map_append, List.sum_append, List.map_singleton, List.sum_singleton]
  omega

/-- Settles O55: the stream's length and checksum are those HostLoad looks for. -/
theorem everyAssembledStreamLoads : Obligations.EveryAssembledStreamLoads := by
  intro source obj m h
  obtain ⟨text, rest, t2, v, payload, -, -, -, -, hlength, rfl⟩ := assemble_stream h
  have hlen := (byte_ofNat_toNat hlength).symm
  exact ⟨_, by rw [loadObject_stream _ _ _ _ payload m hlen, beq_self_eq_true]⟩

end Sys2Proof.Machine
end

section
/-! SUPPORT. The assembly as an agent: each step of the SRU is one line of the pure passes, so a run of them is the pure function
(46_assembler_symbol_resolution.md R110; log 6, 7). -/
namespace Sys2Proof.Machine

/-! ### One step of the agent -/

section
variable {r r' : Sru} {text : Line} {rest : List Line} {e : SruError} {n : Nat}

theorem Sru.advance_pass1_end (hphase : r.phase = .pass1) (h : r.source.drop r.line = []) :
    r.advance = (r.beginPass2, none) := by
  simp only [Sru.advance, hphase, Sru.stepPass1, h]

theorem Sru.advance_pass1_next (hphase : r.phase = .pass1) (h : r.source.drop r.line = text :: rest)
    (hline : pass1Line r.nextLine text = .next r') : r.advance = (r', none) := by
  simp only [Sru.advance, hphase, Sru.stepPass1, h, hline]

theorem Sru.advance_pass1_finish (hphase : r.phase = .pass1) (h : r.source.drop r.line = text :: rest)
    (hline : pass1Line r.nextLine text = .finish r') : r.advance = (r'.beginPass2, none) := by
  simp only [Sru.advance, hphase, Sru.stepPass1, h, hline]

theorem Sru.advance_pass1_error (hphase : r.phase = .pass1) (h : r.source.drop r.line = text :: rest)
    (hline : pass1Line r.nextLine text = .error e n) : r.advance = (Sru.idle, some (.error e n)) := by
  simp only [Sru.advance, hphase, Sru.stepPass1, h, hline]

theorem Sru.advance_header_next (hphase : r.phase = .pass2) (hzero : r.line = 0) (h : emitHeader r = .next r') :
    r.advance = (r', none) := by
  simp only [Sru.advance, hphase, Sru.stepPass2, hzero, if_true, h]

theorem Sru.advance_header_error (hphase : r.phase = .pass2) (hzero : r.line = 0) (h : emitHeader r = .error e n) :
    r.advance = (Sru.idle, some (.error e n)) := by
  simp only [Sru.advance, hphase, Sru.stepPass2, hzero, if_true, h]

theorem Sru.advance_pass2_end (hphase : r.phase = .pass2) (hzero : r.line ≠ 0) (h : r.source.drop r.line = []) :
    r.advance = (Sru.idle, some (.object r.objectStream)) := by
  simp only [Sru.advance, hphase, Sru.stepPass2, hzero, if_false, h]

theorem Sru.advance_pass2_next (hphase : r.phase = .pass2) (hzero : r.line ≠ 0) (h : r.source.drop r.line = text :: rest)
    (hline : pass2Line r.nextLine text = .next r') : r.advance = (r', none) := by
  simp only [Sru.advance, hphase, Sru.stepPass2, hzero, if_false, h, hline]

theorem Sru.advance_pass2_finish (hphase : r.phase = .pass2) (hzero : r.line ≠ 0) (h : r.source.drop r.line = text :: rest)
    (hline : pass2Line r.nextLine text = .finish r') : r.advance = (Sru.idle, some (.object r'.objectStream)) := by
  simp only [Sru.advance, hphase, Sru.stepPass2, hzero, if_false, h, hline]

theorem Sru.advance_pass2_error (hphase : r.phase = .pass2) (hzero : r.line ≠ 0) (h : r.source.drop r.line = text :: rest)
    (hline : pass2Line r.nextLine text = .error e n) : r.advance = (Sru.idle, some (.error e n)) := by
  simp only [Sru.advance, hphase, Sru.stepPass2, hzero, if_false, h, hline]

end

/-- The lines to come after one more is taken up. -/
theorem drop_succ_of_drop_eq_cons {α : Type} {l : List α} {n : Nat} {x : α} {xs : List α} (h : l.drop n = x :: xs) :
    l.drop (n + 1) = xs := by
  rw [← List.tail_drop, h, List.tail_cons]

/-- The machine once an assembly is over: the SRU reset and the result handed to the host (R20; log 7). -/
def assemblyDone (s : State) (result : SruResult) : State := addReply (s.setSru Sru.idle) (.assembled result)

section
variable {s : State} {r : Sru} {result : SruResult} (hrunning : s.running = false) (hactive : s.sru.phase ≠ .idle)
include hrunning hactive

/-- A step in the middle of an assembly. -/
theorem step_of_advance (h : s.sru.advance = (r, none)) : step s = .next (s.setSru r) := by
  rw [step_sru hrunning hactive, sruStep, h]

/-- The step that ends an assembly. -/
theorem step_of_advance_done (h : s.sru.advance = (Sru.idle, some result)) : step s = .next (assemblyDone s result) := by
  rw [step_sru hrunning hactive, sruStep, h]
  rfl

end

/-! ### The passes as runs -/

/-- Pass 1 as a run: one step a line and one at the end of the text, to the start of pass 2 or to the error. -/
theorem run_pass1 (lines : List Line) : ∀ {s : State}, s.running = false → s.sru.phase = .pass1 →
    s.sru.source.drop s.sru.line = lines → ∃ k ≤ lines.length + 1,
      (∃ r, pass1 lines s.sru = .finish r ∧ core.run k s = .next (s.setSru r.beginPass2)) ∨
      (∃ e n, pass1 lines s.sru = .error e n ∧ core.run k s = .next (assemblyDone s (.error e n))) := by
  induction lines with
  | nil =>
    intro s hrunning hphase hdrop
    have hactive : s.sru.phase ≠ .idle := by simp [hphase]
    have hstep := step_of_advance hrunning hactive (Sru.advance_pass1_end hphase hdrop)
    exact ⟨1, Nat.le_refl 1, .inl ⟨s.sru, rfl, run_succ hstep 0⟩⟩
  | cons text rest ih =>
    intro s hrunning hphase hdrop
    have hactive : s.sru.phase ≠ .idle := by simp [hphase]
    simp only [pass1]
    cases hline : pass1Line s.sru.nextLine text with
    | next r =>
      have hstep := step_of_advance hrunning hactive (Sru.advance_pass1_next hphase hdrop hline)
      obtain ⟨hphase', hsource, -, hline', -⟩ := pass1Line_next hline
      have hdrop' : r.source.drop r.line = rest := by
        rw [hsource, hline']
        exact drop_succ_of_drop_eq_cons hdrop
      obtain ⟨k, hk, hrun⟩ := ih (s := s.setSru r) hrunning (hphase'.trans hphase) hdrop'
      refine ⟨k + 1, Nat.succ_le_succ hk, ?_⟩
      rw [run_succ hstep]
      exact hrun
    | finish r =>
      have hstep := step_of_advance hrunning hactive (Sru.advance_pass1_finish hphase hdrop hline)
      exact ⟨1, by simp, .inl ⟨r, rfl, run_succ hstep 0⟩⟩
    | error e n =>
      have hstep := step_of_advance_done hrunning hactive (Sru.advance_pass1_error hphase hdrop hline)
      exact ⟨1, by simp, .inr ⟨e, n, rfl, run_succ hstep 0⟩⟩

/-- Pass 2 over the lines after the header as a run: one step a line and one at the end of the text, to the result. -/
theorem run_pass2 (lines : List Line) : ∀ {s : State}, s.running = false → s.sru.phase = .pass2 → s.sru.line ≠ 0 →
    s.sru.source.drop s.sru.line = lines → ∃ k ≤ lines.length + 1,
      core.run k s = .next (assemblyDone s (pass2 lines s.sru).toObject) := by
  induction lines with
  | nil =>
    intro s hrunning hphase hzero hdrop
    have hactive : s.sru.phase ≠ .idle := by simp [hphase]
    have hstep := step_of_advance_done hrunning hactive (Sru.advance_pass2_end hphase hzero hdrop)
    exact ⟨1, Nat.le_refl 1, run_succ hstep 0⟩
  | cons text rest ih =>
    intro s hrunning hphase hzero hdrop
    have hactive : s.sru.phase ≠ .idle := by simp [hphase]
    simp only [pass2]
    cases hline : pass2Line s.sru.nextLine text with
    | next r =>
      have hstep := step_of_advance hrunning hactive (Sru.advance_pass2_next hphase hzero hdrop hline)
      obtain ⟨bs, hemit⟩ := pass2Line_next hline
      have hphase' : r.phase = .pass2 := by rw [hemit, Sru.emitList_phase]; exact hphase
      have hline' : r.line = s.sru.line + 1 := by rw [hemit, Sru.emitList_line]; rfl
      have hdrop' : r.source.drop r.line = rest := by
        rw [hline', hemit, Sru.emitList_source]
        exact drop_succ_of_drop_eq_cons hdrop
      obtain ⟨k, hk, hrun⟩ := ih (s := s.setSru r) hrunning hphase' (by simp [hline']) hdrop'
      refine ⟨k + 1, Nat.succ_le_succ hk, ?_⟩
      rw [run_succ hstep]
      exact hrun
    | finish r =>
      have hstep := step_of_advance_done hrunning hactive (Sru.advance_pass2_finish hphase hzero hdrop hline)
      exact ⟨1, by simp, run_succ hstep 0⟩
    | error e n =>
      have hstep := step_of_advance_done hrunning hactive (Sru.advance_pass2_error hphase hzero hdrop hline)
      exact ⟨1, by simp, run_succ hstep 0⟩

/-- Pass 2 with its header as a run. -/
theorem run_assemblePass2 {s : State} {r : Sru} (hrunning : s.running = false) (hsru : s.sru = r.beginPass2) :
    ∃ k ≤ r.source.length + 1, core.run k s = .next (assemblyDone s (assemblePass2 r)) := by
  have hphase : s.sru.phase = .pass2 := by rw [hsru]; rfl
  have hactive : s.sru.phase ≠ .idle := by simp [hphase]
  have hzero : s.sru.line = 0 := by rw [hsru]; rfl
  cases hheader : emitHeader r.beginPass2 with
  | finish r1 => exact absurd hheader emitHeader_not_finish
  | error e n =>
    have hstep := step_of_advance_done hrunning hactive (Sru.advance_header_error hphase hzero (hsru ▸ hheader))
    rw [assemblePass2_of_error hheader]
    exact ⟨1, by simp, run_succ hstep 0⟩
  | next r1 =>
    have hstep := step_of_advance hrunning hactive (Sru.advance_header_next hphase hzero (hsru ▸ hheader))
    rw [assemblePass2_of_header hheader]
    obtain ⟨text, rest, t2, v, hsource, -, -, -, -, hemit⟩ := emitHeader_next hheader
    have hphase' : r1.phase = .pass2 := by rw [hemit, Sru.emitList_phase]; rfl
    have hline' : r1.line = 1 := by rw [hemit, Sru.emitList_line]
    have hsource' : r1.source = text :: rest := by rw [hemit, Sru.emitList_source]; exact hsource
    have hdrop : r1.source.drop r1.line = r1.source.tail := by rw [hline', List.drop_one]
    obtain ⟨k, hk, hrun⟩ := run_pass2 _ (s := s.setSru r1) hrunning hphase' (by simp [hline']) hdrop
    refine ⟨k + 1, ?_, ?_⟩
    · have hlength : r.source = text :: rest := hsource
      rw [hsource', List.tail_cons] at hk
      rw [hlength, List.length_cons]
      omega
    · rw [run_succ hstep]
      exact hrun

/-- A whole assembly as a run from its start. -/
theorem run_assemble {s : State} {source : List Line} (hrunning : s.running = false) (hsru : s.sru = Sru.start source) :
    ∃ k ≤ 2 * source.length + 3, core.run k s = .next (assemblyDone s (assemble source)) := by
  have hphase : s.sru.phase = .pass1 := by rw [hsru]; rfl
  have hdrop : s.sru.source.drop s.sru.line = source := by rw [hsru]; rfl
  obtain ⟨k, hk, ⟨r, hpass1, hrun⟩ | ⟨e, n, hpass1, hrun⟩⟩ := run_pass1 source hrunning hphase hdrop
  · rw [hsru] at hpass1
    have hsource : r.source = source := pass1_finish_source hpass1
    obtain ⟨m, hm, hrun'⟩ := run_assemblePass2 (s := s.setSru r.beginPass2) hrunning rfl
    rw [hsource] at hm
    refine ⟨k + m, by omega, ?_⟩
    rw [assemble_of_finish hpass1, run_add hrun]
    exact hrun'
  · rw [hsru] at hpass1
    exact ⟨k, by omega, by rw [hrun, assemble_of_error hpass1]⟩

/-- Settles O56: the command's step, the run from the start, and the one after the other. -/
theorem sruAgentComputesTheFunction : Obligations.SruAgentComputesTheFunction := by
  intro s source hrunning
  refine ⟨fun rest hphase hhost => ?_, fun hsru => ?_, fun rest hphase hhost => ?_⟩
  · exact ⟨_, step_host hrunning hphase hhost, rfl, rfl, rfl, rfl, rfl, rfl, rfl, rfl, rfl, rfl⟩
  · obtain ⟨k, hk, hrun⟩ := run_assemble hrunning hsru
    exact ⟨k, hk, _, hrun, rfl, rfl, rfl, rfl⟩
  · obtain ⟨k, hk, hrun⟩ := run_assemble (s := hostAssemble source (s.setHost rest)) hrunning rfl
    exact ⟨k + 1, Nat.succ_le_succ hk, _, (run_succ (step_host hrunning hphase hhost) k).trans hrun, rfl, rfl, rfl, rfl⟩

end Sys2Proof.Machine
end
